-- ==== Sys2Proof/Word.lean ====
section
/-! DEFINITION. Cells and addresses, and the two fields of an instruction word: the addressing mode and the opcode. -/

namespace Sys2Proof

/-- A cell: 64 bits, read as a signed two's-complement integer by `BitVec.toInt` (spec R8, `CELL_BITS`).
The two's-complement reading is marked in the spec as general knowledge (93, G5): PRESUMED, log 9. -/
abbrev Cell := BitVec 64

/-- An address, "63-bit unsigned" (spec R31, R61): every element is an address of [0, ADDR_MAX], and no other
number can reach the memory controller. -/
abbrev Addr := BitVec 63

/-- The addressing modes (spec R8, R94): Position 0, Immediate 1, Relative 2. -/
inductive Mode where
  | position
  | immediate
  | relative
deriving DecidableEq, Repr

/-- The ten opcodes, a closed set (spec R92), in the order of the spec's list. -/
inductive Opcode where
  | add
  | multiply
  | input
  | output
  | jumpIfTrue
  | jumpIfFalse
  | lessThan
  | equals
  | adjustRelativeBase
  | halt
deriving DecidableEq, Repr

end Sys2Proof
end

