-- ==== Sys2Proof/Config.lean ====
section
/-! DEFINITION. The implementation parameters of spec R8. -/

namespace Sys2Proof.Config

/-- `CELL_MIN` = −2^63 (spec R8). -/
abbrev cellMin : Int := -9223372036854775808

/-- `CELL_MAX` = 2^63 − 1 (spec R8). -/
abbrev cellMax : Int := 9223372036854775807

/-- `ADDR_MAX` = 2^63 − 1 (spec R8, decision D3). -/
abbrev addrMax : Nat := 9223372036854775807

/-- The exponent of `PAGE_LEN` less one: OPEN in the spec (R8, D19), so a constant with no body (log 3). -/
opaque pageLenExp : Nat

/-- `PAGE_LEN`, "a power of two, at least 2" (spec R8, D19), whichever it is. -/
def pageLen : Nat := 2 ^ (pageLenExp + 1)

end Sys2Proof.Config
end

