-- ==== Sys2Proof/Syntax.lean ====
section
/-! DEFINITION. The instructions: one constructor per row of spec/opcode_table.json. -/

namespace Sys2Proof

/-- One operand: its mode digit and its literal cell `raw_i` (spec R91, R98). -/
structure Operand where
  mode : Mode
  raw  : Cell
deriving DecidableEq, Repr

/-- The instruction set (spec R92), operands in operand order: `s` a source (a value), `d` a destination (an
address). A mode digit of an operand position the opcode lacks is checked by the decoder and then means nothing
(spec R94, R101), so no instruction holds one. -/
inductive Instr where
  | add (s0 s1 d2 : Operand)
  | multiply (s0 s1 d2 : Operand)
  | input (d0 : Operand)
  | output (s0 : Operand)
  | jumpIfTrue (s0 s1 : Operand)
  | jumpIfFalse (s0 s1 : Operand)
  | lessThan (s0 s1 d2 : Operand)
  | equals (s0 s1 d2 : Operand)
  | adjustRelativeBase (s0 : Operand)
  | halt
deriving DecidableEq, Repr

end Sys2Proof
end

