-- ==== Sys2Proof/WellFormed.lean ====
section
/-! DEFINITION. Which instructions an assembler may write (spec R105, R106). The decoder and the machine do not
ask for it: an instruction that fails a check here decodes and runs into the error the spec names (R102, R129). -/

namespace Sys2Proof

/-- A Position operand is written `[a]` with a ≥ 0 (spec R105). -/
def Operand.literalOk (o : Operand) : Bool :=
  match o.mode with
  | .position => decide (0 ≤ o.raw.toInt)
  | .immediate => true
  | .relative => true

/-- A source: any mode (spec R125). -/
def Operand.sourceOk (o : Operand) : Bool := o.literalOk

/-- A destination: "An assembler must reject `#v` as a destination" (spec R106). -/
def Operand.destOk (o : Operand) : Bool := o.literalOk && decide (o.mode ≠ .immediate)

/-- The instructions an assembler may write (spec R105, R106). -/
def Instr.wellFormed : Instr → Bool
  | .add s0 s1 d2 => s0.sourceOk && s1.sourceOk && d2.destOk
  | .multiply s0 s1 d2 => s0.sourceOk && s1.sourceOk && d2.destOk
  | .input d0 => d0.destOk
  | .output s0 => s0.sourceOk
  | .jumpIfTrue s0 s1 => s0.sourceOk && s1.sourceOk
  | .jumpIfFalse s0 s1 => s0.sourceOk && s1.sourceOk
  | .lessThan s0 s1 d2 => s0.sourceOk && s1.sourceOk && d2.destOk
  | .equals s0 s1 d2 => s0.sourceOk && s1.sourceOk && d2.destOk
  | .adjustRelativeBase s0 => s0.sourceOk
  | .halt => true

end Sys2Proof
end

