-- ==== Sys2Proof/Decode.lean ====
section
/-! DEFINITION. Decoding instruction words and whole instructions (spec R90 to R103), and encoding them (R101, R106). -/

namespace Sys2Proof

/-- `digit(c, k)` (spec R10): the k-th decimal digit, 0 at the units. -/
def digit (c k : Nat) : Nat := c / 10 ^ k % 10

/-- The number of an opcode (spec R92). 5 and 7 are marked there as general knowledge: PRESUMED, log 9. -/
def Opcode.number : Opcode → Nat
  | .add => 1
  | .multiply => 2
  | .input => 3
  | .output => 4
  | .jumpIfTrue => 5
  | .jumpIfFalse => 6
  | .lessThan => 7
  | .equals => 8
  | .adjustRelativeBase => 9
  | .halt => 99

/-- `width(k)`: the length of the instruction in cells (spec R97). -/
def Opcode.width : Opcode → Nat
  | .add => 4
  | .multiply => 4
  | .input => 2
  | .output => 2
  | .jumpIfTrue => 3
  | .jumpIfFalse => 3
  | .lessThan => 4
  | .equals => 4
  | .adjustRelativeBase => 2
  | .halt => 1

/-- The operand count n = width − 1 (spec R120). -/
def Opcode.operandCount (k : Opcode) : Nat := k.width - 1

/-- The opcode with a number, if one has it (spec R92: the set is closed). -/
def Opcode.ofNumber : Nat → Option Opcode
  | 1 => some .add
  | 2 => some .multiply
  | 3 => some .input
  | 4 => some .output
  | 5 => some .jumpIfTrue
  | 6 => some .jumpIfFalse
  | 7 => some .lessThan
  | 8 => some .equals
  | 9 => some .adjustRelativeBase
  | 99 => some .halt
  | _ => none

/-- The digit of a mode (spec R94). -/
def Mode.number : Mode → Nat
  | .position => 0
  | .immediate => 1
  | .relative => 2

/-- `mode(digit)` (spec R103): 3 to 9 have no mode. -/
def Mode.ofNumber : Nat → Option Mode
  | 0 => some .position
  | 1 => some .immediate
  | 2 => some .relative
  | _ => none

/-- Why an instruction word does not decode (spec R102). -/
inductive WordError where
  /-- The word is negative, or `w mod 100` is no opcode (spec R93). -/
  | unknownOpcode
  /-- A digit 2, 3 or 4 is in 3..9 (spec R94). -/
  | unknownParameterMode
deriving DecidableEq, Repr

/-- Why a sequence of cells does not decode to an instruction. -/
inductive DecodeError where
  /-- The instruction word does not decode (spec R102). -/
  | badWord (e : WordError)
  /-- There is no instruction word, or fewer cells follow it than its opcode has operands. -/
  | truncated
deriving DecidableEq, Repr

/-- What the decoder reads from an instruction word: `(k, m0, m1, m2)` (spec R103). -/
structure WordFields where
  op : Opcode
  m0 : Mode
  m1 : Mode
  m2 : Mode
deriving DecidableEq, Repr

/-- `op(w)` (spec R93). A negative word is always UnknownOpcode (decision D5). -/
def decodeOpcode (w : Cell) : Except WordError Opcode :=
  if w.toInt < 0 then .error .unknownOpcode
  else
    match Opcode.ofNumber (w.toNat % 100) with
    | some k => .ok k
    | none => .error .unknownOpcode

/-- `mode_i(w)` (spec R94): digit i + 2 of the word. -/
def decodeMode (w : Cell) (i : Nat) : Except WordError Mode :=
  match Mode.ofNumber (digit w.toNat (i + 2)) with
  | some m => .ok m
  | none => .error .unknownParameterMode

/-- `decode(w)` (spec R103): the opcode first, then all three mode digits in order, for every opcode (decision D6);
digits 5 and above are ignored (R95). -/
def decodeWord (w : Cell) : Except WordError WordFields := do
  let k ← decodeOpcode w
  let m0 ← decodeMode w 0
  let m1 ← decodeMode w 1
  let m2 ← decodeMode w 2
  return { op := k, m0 := m0, m1 := m1, m2 := m2 }

/-- The instruction of a decoded word and its literals `raw 0`, `raw 1`, `raw 2`, of which it takes those its
opcode has (spec R97, R98). -/
def WordFields.assemble (f : WordFields) (raw : Nat → Cell) : Instr :=
  match f.op with
  | .add => .add ⟨f.m0, raw 0⟩ ⟨f.m1, raw 1⟩ ⟨f.m2, raw 2⟩
  | .multiply => .multiply ⟨f.m0, raw 0⟩ ⟨f.m1, raw 1⟩ ⟨f.m2, raw 2⟩
  | .input => .input ⟨f.m0, raw 0⟩
  | .output => .output ⟨f.m0, raw 0⟩
  | .jumpIfTrue => .jumpIfTrue ⟨f.m0, raw 0⟩ ⟨f.m1, raw 1⟩
  | .jumpIfFalse => .jumpIfFalse ⟨f.m0, raw 0⟩ ⟨f.m1, raw 1⟩
  | .lessThan => .lessThan ⟨f.m0, raw 0⟩ ⟨f.m1, raw 1⟩ ⟨f.m2, raw 2⟩
  | .equals => .equals ⟨f.m0, raw 0⟩ ⟨f.m1, raw 1⟩ ⟨f.m2, raw 2⟩
  | .adjustRelativeBase => .adjustRelativeBase ⟨f.m0, raw 0⟩
  | .halt => .halt

/-- Decode the instruction at the head of a sequence of cells, and give the cells after it (spec R90, R100). Total:
a sequence is an instruction and its rest, or is rejected by name. -/
def decode : List Cell → Except DecodeError (Instr × List Cell)
  | [] => .error .truncated
  | w :: rest =>
    match decodeWord w with
    | .error e => .error (.badWord e)
    | .ok f =>
      if rest.length < f.op.operandCount then .error .truncated
      else .ok (f.assemble (fun i => rest.getD i 0), rest.drop f.op.operandCount)

/-- The opcode of an instruction. -/
def Instr.opcode : Instr → Opcode
  | .add _ _ _ => .add
  | .multiply _ _ _ => .multiply
  | .input _ => .input
  | .output _ => .output
  | .jumpIfTrue _ _ => .jumpIfTrue
  | .jumpIfFalse _ _ => .jumpIfFalse
  | .lessThan _ _ _ => .lessThan
  | .equals _ _ _ => .equals
  | .adjustRelativeBase _ => .adjustRelativeBase
  | .halt => .halt

/-- The operands of an instruction, in operand order. -/
def Instr.operands : Instr → List Operand
  | .add s0 s1 d2 => [s0, s1, d2]
  | .multiply s0 s1 d2 => [s0, s1, d2]
  | .input d0 => [d0]
  | .output s0 => [s0]
  | .jumpIfTrue s0 s1 => [s0, s1]
  | .jumpIfFalse s0 s1 => [s0, s1]
  | .lessThan s0 s1 d2 => [s0, s1, d2]
  | .equals s0 s1 d2 => [s0, s1, d2]
  | .adjustRelativeBase s0 => [s0]
  | .halt => []

/-- `k + 100·m0 + 1000·m1 + 10000·m2` (spec R101). -/
def encodeWord (k : Opcode) (m0 m1 m2 : Mode) : Cell :=
  BitVec.ofNat 64 (k.number + 100 * m0.number + 1000 * m1.number + 10000 * m2.number)

/-- The canonical word of an instruction: a mode digit of a position it lacks is 0 (spec R101). -/
def Instr.word (i : Instr) : Cell :=
  match i.operands with
  | [] => encodeWord i.opcode .position .position .position
  | [a] => encodeWord i.opcode a.mode .position .position
  | [a, b] => encodeWord i.opcode a.mode b.mode .position
  | a :: b :: c :: _ => encodeWord i.opcode a.mode b.mode c.mode

/-- The cells of an instruction: its canonical word, "then come the literals in operand order" (spec R106). -/
def encode (i : Instr) : List Cell := i.word :: i.operands.map Operand.raw

/-- An assembler's encoder (spec R106): it rejects what R105 and R106 have no way to write. -/
def assembleInstr (i : Instr) : Option (List Cell) :=
  if i.wellFormed then some (encode i) else none

/-- The four cells, the longest instruction's length, that the bits of `w` below `nbits` fill, 64 bits each from bit
0 up; every bit from `nbits` on is 0. Cells have no byte order (spec R69). -/
def tableCells (nbits w : Nat) : List Cell :=
  let v := w % 2 ^ nbits
  [BitVec.ofNat 64 v, BitVec.ofNat 64 (v / 2 ^ 64), BitVec.ofNat 64 (v / 2 ^ 128), BitVec.ofNat 64 (v / 2 ^ 192)]

/-- The instruction the decoder reads from the bits of a table row. -/
def decodeTableWord (nbits w : Nat) : Option Instr :=
  match decode (tableCells nbits w) with
  | .ok (i, _) => some i
  | .error _ => none

end Sys2Proof
end

