-- ==== Sys2Proof/Machine/State.lean ====
section
/-! DEFINITION. The state of one instance (spec R31), its reset value (R45, R300), and the reasons a step or a host
command can stop. -/

namespace Sys2Proof.Machine

/-- The error kinds (spec R270). An error ends the current command and is returned to the host; it changes no state
and "transfers no control inside the machine" (60_exceptions.md, R13, R276). So a step that raises one answers
`.fault` with its kind and has no next state (R134). Each is the spec's own outcome, hence safe. -/
inductive Fault where
  /-- Raised by every step whose instruction word is negative or has no defined opcode (spec R93). Safe. -/
  | unknownOpcode
  /-- Raised by every step with a mode digit 2, 3 or 4 in 3..9 (spec R94). Safe. -/
  | unknownParameterMode
  /-- Raised by `MC_LOAD` alone, at a start that is not page-aligned (spec R66). Safe. -/
  | memoryAlignment
  /-- Raised by STEP and RUN in Halted (spec R121, R135). Safe. -/
  | machineHalted
  /-- Raised by STEP in Blocked (spec R121, R234). Safe. -/
  | machineBlocked
  /-- Raised by INPUT when a value is pending (spec R236). Safe. -/
  | inputAlreadyPopulated
  /-- Raised by OUTPUT when no value is pending (spec R237). Safe. -/
  | noOutput
  /-- Raised when an operand address, a taken jump's target or a new relative base is below 0, and by READ and WRITE
  (spec R123, R190, R192, R210, R238, R239). Safe. -/
  | negativeAddress
  /-- Raised by Add, Multiply, LessThan, Equals and Input whose destination is in Immediate mode (spec R126). Safe. -/
  | immediateDestination
  /-- Raised when a sum, a product or an address leaves its range (spec R272, decision D4). Safe. -/
  | arithmeticOverflow
deriving DecidableEq, Repr

/-- What the model turns away because the spec gives it no effect. -/
inductive Refusal where
  /-- Raised by an arm of `exec` whose instruction has no meaning yet; no arm of this model is one. Safe. -/
  | notModelled (mnemonic : String)
  /-- Raised by the host command NEW with an image of more than ADDR_MAX + 1 cells: "refused; no such image can be
  presented" (spec R231, decision D24, log 8). Safe. -/
  | imageTooLong
deriving DecidableEq, Repr

/-- The execution state (spec R35). -/
inductive ExecState where
  | paused
  | running
  | blocked
  | halted
deriving DecidableEq, Repr

/-- The cells of `M` (spec R41): address and value, addresses strictly rising, no value 0. An address not listed
reads as 0, "Reading an address whose page was never allocated yields zero". Cells, not bytes: log 1. -/
abbrev Memory := List (Nat × Cell)

/-- The state of one instance, "exactly the following" (spec R31). -/
structure State where
  /-- `M`, the Address Space (spec R41). -/
  mem : Memory
  /-- The addresses written so far, strictly rising: `P`, the hidden set of allocated pages, is the set of the pages
  these lie in (spec R42; log 2). -/
  written : List Nat
  /-- The program counter (spec R32). -/
  pc : Addr
  /-- The relative base (spec R34). -/
  rb : Addr
  /-- The execution state (spec R35). -/
  state : ExecState
  /-- The pending-input slot, `none` while `in_full` = 0 (spec R37, U5). -/
  inSlot : Option Cell
  /-- The pending-output slot, `none` while `out_full` = 0 (spec R38, U5). -/
  outSlot : Option Cell
deriving DecidableEq, Repr

/-- The machine right after reset (spec R45, R300): every cell 0, no page allocated, pc and rb 0, Paused, both slots
empty. Every value is the spec's. -/
def State.reset : State :=
  { mem := [], written := [], pc := 0, rb := 0, state := .paused, inSlot := none, outSlot := none }

end Sys2Proof.Machine
end

