-- ==== Sys2Proof/Machine/Ops.lean ====
section
/-! DEFINITION. The named operations over memory and registers: cell ranges, the memory controller (spec R61 to R68),
field updates, the fetch (R122, R124), and the entry of an error (R13, R133, R276). -/

namespace Sys2Proof.Machine

/-! ### Cells and addresses as integers -/

/-- `fits(v)` (spec R9). -/
def fits (v : Int) : Bool := decide (Config.cellMin ≤ v) && decide (v ≤ Config.cellMax)

/-- The cell that holds `v`, for a `v` that fits. -/
def cellOfInt (v : Int) : Cell := BitVec.ofInt 64 v

/-- The address `a`, for an `a` of [0, ADDR_MAX]. -/
def addrOfNat (a : Nat) : Addr := BitVec.ofNat 63 a

/-- An address as the cell that holds it, for STATUS (spec R241). -/
def cellOfAddr (a : Addr) : Cell := BitVec.ofNat 64 a.toNat

/-! ### Memory -/

/-- The value of the cell at `a`: the entry listed for it, or 0 (spec R41, R62). -/
def Memory.readAt : Memory → Nat → Cell
  | [], _ => 0
  | (b, w) :: m, a => if b = a then w else Memory.readAt m a

/-- Memory without an entry for `a`. -/
def Memory.erase : Memory → Nat → Memory
  | [], _ => []
  | (b, w) :: m, a => if b = a then Memory.erase m a else (b, w) :: Memory.erase m a

/-- Memory with the entry (a, v) before the first higher address. -/
def Memory.insert : Memory → Nat → Cell → Memory
  | [], a, v => [(a, v)]
  | (b, w) :: m, a, v => if a < b then (a, v) :: (b, w) :: m else (b, w) :: Memory.insert m a v

/-- `M[a] <- v` in the canonical form: no entry for 0, the value an unlisted address reads as. -/
def Memory.writeAt (m : Memory) (a : Nat) (v : Cell) : Memory :=
  if v = 0 then Memory.erase m a else Memory.insert (Memory.erase m a) a v

/-- The canonical form: addresses strictly rising and at most ADDR_MAX, no value 0. -/
abbrev Memory.wf (m : Memory) : Prop :=
  m.Pairwise (fun x y => x.1 < y.1) ∧ ∀ x ∈ m, x.1 ≤ Config.addrMax ∧ x.2 ≠ 0

/-- The addresses written, with `a` among them, kept strictly rising. -/
def insertAddr (a : Nat) : List Nat → List Nat
  | [] => [a]
  | b :: l => if a < b then a :: b :: l else if a = b then b :: l else b :: insertAddr a l

/-! ### The memory controller -/

/-- `MC_READ(a)` (spec R62): `M[a]`, and no state changes. -/
def mcRead (a : Addr) (s : State) : Cell := s.mem.readAt a.toNat

/-- `MC_WRITE(a, v)` (spec R63): `M[a] <- v`; a's page is allocated if it was not. -/
def mcWrite (a : Addr) (v : Cell) (s : State) : State :=
  { s with mem := s.mem.writeAt a.toNat v, written := insertAddr a.toNat s.written }

/-- `M[start + j] <- vs[j]` for each j in order (spec R67). -/
def mcWriteList (start : Addr) : List Cell → State → State
  | [], s => s
  | v :: vs, s => mcWriteList (start + 1) vs (mcWrite start v s)

/-- `MC_LOAD(start, vs)` (spec R66 to R68): the alignment check first, whatever `vs` is; then the top of memory. -/
def mcLoad (start : Addr) (vs : List Cell) (s : State) : Except Fault State :=
  if start.toNat % Config.pageLen ≠ 0 then .error .memoryAlignment
  else if 0 < vs.length ∧ Config.addrMax < start.toNat + vs.length - 1 then .error .arithmeticOverflow
  else .ok (mcWriteList start vs s)

/-- The base address of the page `a` lies in: "a multiple of PAGE_LEN" (spec R42). -/
def pageBase (a : Nat) : Nat := a / Config.pageLen * Config.pageLen

/-- The page with base `p` is in `P`: some cell of it has been written (spec R42: "Writing a cell adds its page to
`P`. Reading never adds to `P`"). -/
def State.PageAllocated (s : State) (p : Nat) : Prop := ∃ a ∈ s.written, pageBase a = p

/-! ### Registers -/

/-- `pc <- p`. -/
def State.setPc (s : State) (p : Addr) : State := { s with pc := p }

/-- `rb <- b`. -/
def State.setRb (s : State) (b : Addr) : State := { s with rb := b }

/-- `state <- x`. -/
def State.setExec (s : State) (x : ExecState) : State := { s with state := x }

/-- Fill (`some v`) or empty (`none`) the pending-input slot. -/
def State.setIn (s : State) (o : Option Cell) : State := { s with inSlot := o }

/-- Fill (`some v`) or empty (`none`) the pending-output slot. -/
def State.setOut (s : State) (o : Option Cell) : State := { s with outSlot := o }

/-! ### Errors -/

/-- Ends a step: it commits the state its checks have led to, or takes the error the first failing check raised. TAKING
AN ERROR: nothing is saved, no register, mode or cell changes, control goes to the host with the kind (spec R13, R133,
R271, R276). There is no return instruction: the next command re-executes at the same pc (R277). -/
def finish : Except Fault State → Host.Outcome State Fault Refusal
  | .ok s => .next s
  | .error f => .fault f

/-- The error kind of a word that does not decode (spec R122). -/
def wordFault : WordError → Fault
  | .unknownOpcode => .unknownOpcode
  | .unknownParameterMode => .unknownParameterMode

/-! ### The phases of a step before its opcode's rule -/

/-- S0, the precondition (spec R121): Halted and Blocked refuse a step, Paused and Running let it proceed. -/
def checkRunnable (s : State) : Except Fault Unit :=
  match s.state with
  | .paused => .ok ()
  | .running => .ok ()
  | .blocked => .error .machineBlocked
  | .halted => .error .machineHalted

/-- `raw_i`, the cell at `pc + 1 + i` (spec R14). -/
def literalAt (s : State) (i : Nat) : Cell := s.mem.readAt (s.pc.toNat + 1 + i)

/-- S1 to S4 (spec R120, R122, R124): fetch the word at pc, decode it, check that the literals lie in the address
space, read them. -/
def fetchInstr (s : State) : Except Fault Instr :=
  match decodeWord (mcRead s.pc s) with
  | .error e => .error (wordFault e)
  | .ok f =>
    if Config.addrMax < s.pc.toNat + f.op.operandCount then .error .arithmeticOverflow
    else .ok (f.assemble (literalAt s))

end Sys2Proof.Machine
end

