-- ==== Sys2Proof/Machine/Operands.lean ====
section
/-! DEFINITION. Operand resolution and the next pc (spec R123 to R131). -/

namespace Sys2Proof.Machine

/-- `CheckAddr(a)` (spec R123). -/
def checkAddr (a : Int) : Except Fault Addr :=
  if a < 0 then .error .negativeAddress
  else if (Config.addrMax : Int) < a then .error .arithmeticOverflow
  else .ok (addrOfNat a.toNat)

/-- The address a Relative literal forms, `rb + raw_i`, in exact integer arithmetic (spec R123). -/
def relativeAddr (raw : Cell) (s : State) : Int := (s.rb.toNat : Int) + raw.toInt

/-- `Src(i)`: a source operand's value (spec R125). -/
def srcValue (o : Operand) (s : State) : Except Fault Cell :=
  match o.mode with
  | .immediate => .ok o.raw
  | .position => do
    let a ← checkAddr o.raw.toInt
    return mcRead a s
  | .relative => do
    let a ← checkAddr (relativeAddr o.raw s)
    return mcRead a s

/-- `Dst(i)`: a destination operand's address (spec R126); it reads no memory. -/
def dstAddr (o : Operand) (s : State) : Except Fault Addr :=
  match o.mode with
  | .immediate => .error .immediateDestination
  | .position => checkAddr o.raw.toInt
  | .relative => checkAddr (relativeAddr o.raw s)

/-- `NextPc()` (spec R131): `pc + width(k)`, which never wraps. -/
def nextPc (k : Opcode) (s : State) : Except Fault Addr :=
  if Config.addrMax < s.pc.toNat + k.width then .error .arithmeticOverflow
  else .ok (addrOfNat (s.pc.toNat + k.width))

/-- The exact result `r` of Add or Multiply as a cell: "if not fits(r): raise ArithmeticOverflow" (spec R149). -/
def narrow (r : Int) : Except Fault Cell :=
  if fits r then .ok (cellOfInt r) else .error .arithmeticOverflow

/-- The three-operand instructions (format F3): both sources, then the destination, then the result, then the next pc;
then the commit (spec R150 to R156). -/
def binaryOp (k : Opcode) (f : Cell → Cell → Except Fault Cell) (s0 s1 d2 : Operand) (s : State) :
    Except Fault State := do
  let a ← srcValue s0 s
  let b ← srcValue s1 s
  let d ← dstAddr d2 s
  let r ← f a b
  let p ← nextPc k s
  return (mcWrite d r s).setPc p

/-- The conditional jumps (format F2S): both operands are evaluated, taken or not (spec R127, R194); the target's value
is checked when the jump is taken (R190, R192). A cell never exceeds ADDR_MAX, so of `checkAddr` only the check for
below 0 can fail here. -/
def condJump (k : Opcode) (taken : Cell → Bool) (s0 s1 : Operand) (s : State) : Except Fault State := do
  let c ← srcValue s0 s
  let t ← srcValue s1 s
  if taken c then
    let p ← checkAddr t.toInt
    return s.setPc p
  else
    let p ← nextPc k s
    return s.setPc p

end Sys2Proof.Machine
end

