-- ==== Sys2Proof/Machine/Flags.lean ====
section
/-! DEFINITION. What other machines keep in flags. "The engine has no status flags, condition codes or predicates"
(spec R39): LessThan and Equals write their truth value to memory, and the jumps test a value. -/

namespace Sys2Proof.Machine

/-- The truth value a comparison writes: "exactly 0 or 1" (spec R149). -/
def truthCell (b : Bool) : Cell := if b then 1 else 0

/-- JumpIfTrue's predicate, `c != 0` (spec R190): "Any non-zero condition, negative included". -/
def conditionTrue (c : Cell) : Bool := decide (c.toInt ≠ 0)

/-- JumpIfFalse's predicate, `c == 0` (spec R192): "Only exactly 0 takes the jump". -/
def conditionFalse (c : Cell) : Bool := decide (c.toInt = 0)

end Sys2Proof.Machine
end

