-- ==== Sys2Proof/Machine/Arith.lean ====
section
/-! DEFINITION. Add, Multiply, LessThan, Equals (spec 41_arith_compare.md). -/

namespace Sys2Proof.Machine

/-- Add's result: the exact sum, or ArithmeticOverflow (spec R150). -/
def addCells (a b : Cell) : Except Fault Cell := narrow (a.toInt + b.toInt)

/-- Multiply's result: the exact product, or ArithmeticOverflow (spec R152). -/
def mulCells (a b : Cell) : Except Fault Cell := narrow (a.toInt * b.toInt)

/-- LessThan's result: 1 if a < b as signed integers, else 0; it never overflows (spec R154). -/
def ltCells (a b : Cell) : Except Fault Cell := .ok (truthCell (decide (a.toInt < b.toInt)))

/-- Equals's result: 1 if a = b, else 0; it never overflows (spec R156). -/
def eqCells (a b : Cell) : Except Fault Cell := .ok (truthCell (decide (a.toInt = b.toInt)))

/-- ADD (spec R150). -/
def execAdd (s0 s1 d2 : Operand) (s : State) : Host.Outcome State Fault Refusal :=
  finish (binaryOp .add addCells s0 s1 d2 s)

/-- MUL (spec R152). -/
def execMultiply (s0 s1 d2 : Operand) (s : State) : Host.Outcome State Fault Refusal :=
  finish (binaryOp .multiply mulCells s0 s1 d2 s)

/-- LT (spec R154). -/
def execLessThan (s0 s1 d2 : Operand) (s : State) : Host.Outcome State Fault Refusal :=
  finish (binaryOp .lessThan ltCells s0 s1 d2 s)

/-- EQ (spec R156). -/
def execEquals (s0 s1 d2 : Operand) (s : State) : Host.Outcome State Fault Refusal :=
  finish (binaryOp .equals eqCells s0 s1 d2 s)

end Sys2Proof.Machine
end

