-- ==== Sys2Proof/Machine/BaseHalt.lean ====
section
/-! DEFINITION. AdjustRelativeBase and Halt (spec 44_base_and_halt.md). -/

namespace Sys2Proof.Machine

/-- ARB (spec R210): the operand is read with the old base; the new base, an exact sum, must lie in [0, ADDR_MAX],
which is the check of `checkAddr` with the same two errors. -/
def execAdjustRelativeBase (s0 : Operand) (s : State) : Host.Outcome State Fault Refusal :=
  finish (do
    let v ← srcValue s0 s
    let b ← checkAddr (relativeAddr v s)
    let p ← nextPc .adjustRelativeBase s
    return (s.setRb b).setPc p)

/-- HLT (spec R215): Halted, with pc left at the Halt word (decision D14). -/
def execHalt (s : State) : Host.Outcome State Fault Refusal :=
  finish (.ok (s.setExec .halted))

end Sys2Proof.Machine
end

