-- ==== Sys2Proof/Machine/Io.lean ====
section
/-! DEFINITION. Input and Output (spec 42_io.md). -/

namespace Sys2Proof.Machine

/-- Input's effect once its destination `d` is known (spec R170): with no pending value it blocks, and pc, memory and
the slots stay; with one it writes it, empties the slot and advances. -/
def takeInput (d : Addr) (s : State) : Except Fault State :=
  match s.inSlot with
  | none => .ok (s.setExec .blocked)
  | some v => do
    let p ← nextPc .input s
    return ((mcWrite d v s).setIn none).setPc p

/-- IN (spec R170): the destination is checked before the slot is looked at. -/
def execInput (d0 : Operand) (s : State) : Host.Outcome State Fault Refusal :=
  finish (do
    let d ← dstAddr d0 s
    takeInput d s)

/-- OUT (spec R175): it overwrites an undrained value (decision D9), blocks, and advances. -/
def execOutput (s0 : Operand) (s : State) : Host.Outcome State Fault Refusal :=
  finish (do
    let v ← srcValue s0 s
    let p ← nextPc .output s
    return ((s.setOut (some v)).setExec .blocked).setPc p)

end Sys2Proof.Machine
end

