-- ==== Sys2Proof/Machine/Jumps.lean ====
section
/-! DEFINITION. JumpIfTrue and JumpIfFalse (spec 43_jumps.md). -/

namespace Sys2Proof.Machine

/-- JT (spec R190). -/
def execJumpIfTrue (s0 s1 : Operand) (s : State) : Host.Outcome State Fault Refusal :=
  finish (condJump .jumpIfTrue conditionTrue s0 s1 s)

/-- JF (spec R192). -/
def execJumpIfFalse (s0 s1 : Operand) (s : State) : Host.Outcome State Fault Refusal :=
  finish (condJump .jumpIfFalse conditionFalse s0 s1 s)

end Sys2Proof.Machine
end

