-- ==== Sys2Proof/Machine/Dispatch.lean ====
section
/-! DEFINITION. The dispatch of a decoded instruction to its rule (spec R132). -/

namespace Sys2Proof.Machine

/-- `Execute_k()` (spec R120, R132): phases S5 to S8 of a step. -/
def exec (i : Instr) (s : State) : Host.Outcome State Fault Refusal :=
  match i with
  | .add s0 s1 d2 => Sys2Proof.Machine.execAdd s0 s1 d2 s
  | .multiply s0 s1 d2 => Sys2Proof.Machine.execMultiply s0 s1 d2 s
  | .input d0 => Sys2Proof.Machine.execInput d0 s
  | .output s0 => Sys2Proof.Machine.execOutput s0 s
  | .jumpIfTrue s0 s1 => Sys2Proof.Machine.execJumpIfTrue s0 s1 s
  | .jumpIfFalse s0 s1 => Sys2Proof.Machine.execJumpIfFalse s0 s1 s
  | .lessThan s0 s1 d2 => Sys2Proof.Machine.execLessThan s0 s1 d2 s
  | .equals s0 s1 d2 => Sys2Proof.Machine.execEquals s0 s1 d2 s
  | .adjustRelativeBase s0 => Sys2Proof.Machine.execAdjustRelativeBase s0 s
  | .halt => Sys2Proof.Machine.execHalt s

end Sys2Proof.Machine
end

