-- ==== Sys2Proof/Machine/Step.lean ====
section
/-! DEFINITION. The step (spec R120), and how the host's checks place an instruction where it fetches. -/

namespace Sys2Proof.Machine

/-- `Step()` (spec R120): the precondition, the fetch and decode, then the opcode's rule. "The outcome is either the next
values of that state, or an error kind with the state unchanged" (R134). -/
def step (s : State) : Host.Outcome State Fault Refusal :=
  match checkRunnable s with
  | .error f => .fault f
  | .ok _ =>
    match fetchInstr s with
    | .error f => .fault f
    | .ok i => exec i s

/-- `s` with the cells of a table row's instruction at pc, in an execution state that lets a step proceed. It stands for
the host's load of a program (spec R231, R239; log 5). Cells above ADDR_MAX do not exist. -/
def State.withFetchWord (s : State) (nbits w : Nat) : State :=
  let room := Config.addrMax + 1 - s.pc.toNat
  let t := mcWriteList s.pc ((tableCells nbits w).take room) s
  match checkRunnable s with
  | .ok _ => t
  | .error _ => t.setExec .paused

end Sys2Proof.Machine
end

