-- ==== Sys2Proof/Machine/HostPort.lean ====
section
/-! DEFINITION. The host interface (spec 45_host_interface.md): the eight commands, RUN's loop (R135), the responses
(R242), reset (R300), and the fields of the signal-level port (R243). -/

namespace Sys2Proof.Machine

/-- The host commands (spec R3, R231 to R241). -/
inductive Command where
  | new (image : List Cell)
  | run
  | step
  | input (v : Cell)
  | output
  | read (a : Cell)
  | write (a v : Cell)
  | status (sel : Cell)
deriving DecidableEq, Repr

/-- A response: a status, OK or one error kind, and one data cell (spec R242). -/
inductive Response where
  | ok (data : Cell)
  | error (kind : Fault)
deriving DecidableEq, Repr

/-- What becomes of an accepted command. -/
inductive PortOutcome where
  /-- The block answers, and its state is then `s`. -/
  | answered (r : Response) (s : State)
  /-- A RUN that has not ended within the steps allowed it (spec R139, U8; log 6). No result of a RUN: it is still in
  progress, its steps have led to `s`, and the port accepts nothing (`PortState.running`). -/
  | noResponse (s : State)
  /-- The command lies outside the port's domain, and the state is unchanged (spec R231, D24). -/
  | refused (r : Refusal)
deriving DecidableEq, Repr

/-- The code of an execution state (spec R35, decision D18). -/
def ExecState.code : ExecState → Nat
  | .paused => 0
  | .running => 1
  | .blocked => 2
  | .halted => 3

/-- The status code of an error kind (spec R270, decision D18). -/
def Fault.code : Fault → Nat
  | .unknownOpcode => 1
  | .unknownParameterMode => 2
  | .memoryAlignment => 3
  | .machineHalted => 4
  | .machineBlocked => 5
  | .inputAlreadyPopulated => 6
  | .noOutput => 7
  | .negativeAddress => 8
  | .immediateDestination => 9
  | .arithmeticOverflow => 10

/-- The status of a response: 0 for OK (spec R270). -/
def Response.code : Response → Nat
  | .ok _ => 0
  | .error k => k.code

/-- The data of a response: 0 with every error (spec R242). -/
def Response.data : Response → Cell
  | .ok d => d
  | .error _ => 0

/-- An error response: "A command that raises an error changes no state" (spec R13, R230, R271). -/
def respondError (f : Fault) (s : State) : PortOutcome := .answered (.error f) s

/-- NEW(prog) (spec R231): every earlier cell, register and slot is forgotten, then `MC_LOAD(0, prog)`. Accepted in
every state (decision D22). -/
def hostNew (prog : List Cell) (s : State) : PortOutcome :=
  if Config.addrMax + 1 < prog.length then .refused .imageTooLong
  else
    match mcLoad 0 prog State.reset with
    | .ok t => .answered (.ok 0) t
    | .error f => respondError f s

/-- The loop of `Run()` (spec R135), for at most `fuel` steps: a failing step ends it with the effects of the steps
before it (R137); a step that leaves Running ends it with the state reached (R136). -/
def runLoop : Nat → State → PortOutcome
  | 0, s => .noResponse s
  | fuel + 1, s =>
    match Sys2Proof.Machine.step s with
    | .fault f => respondError f s
    | .refused r => .refused r
    | .next t =>
      if t.state = .running then runLoop fuel t
      else .answered (.ok (BitVec.ofNat 64 t.state.code)) t

/-- RUN (spec R135, R233): refused in Halted with no change; else Running, and the loop. -/
def hostRun (fuel : Nat) (s : State) : PortOutcome :=
  if s.state = .halted then respondError .machineHalted s
  else runLoop fuel (s.setExec .running)

/-- STEP (spec R140, R234): `Step()` once, without setting Running first. -/
def hostStep (s : State) : PortOutcome :=
  match Sys2Proof.Machine.step s with
  | .next t => .answered (.ok 0) t
  | .fault f => respondError f s
  | .refused r => .refused r

/-- INPUT(v) (spec R236). -/
def hostInput (v : Cell) (s : State) : PortOutcome :=
  match s.inSlot with
  | some _ => respondError .inputAlreadyPopulated s
  | none => .answered (.ok 0) (s.setIn (some v))

/-- OUTPUT (spec R237). -/
def hostOutput (s : State) : PortOutcome :=
  match s.outSlot with
  | none => respondError .noOutput s
  | some v => .answered (.ok v) (s.setOut none)

/-- READ(a) (spec R238): a raw passthrough, with no mode and no relative base; a below 0 is NegativeAddress (D17). -/
def hostRead (a : Cell) (s : State) : PortOutcome :=
  if a.toInt < 0 then respondError .negativeAddress s
  else .answered (.ok (mcRead (addrOfNat a.toNat) s)) s

/-- WRITE(a, v) (spec R239): a below 0 is NegativeAddress, and nothing is written (D17). -/
def hostWrite (a v : Cell) (s : State) : PortOutcome :=
  if a.toInt < 0 then respondError .negativeAddress s
  else .answered (.ok 0) (mcWrite (addrOfNat a.toNat) v s)

/-- The data of STATUS(0) (spec R241): `state` in bits 1:0, `in_full` in bit 2, `out_full` in bit 3. -/
def statusWord (s : State) : Cell :=
  BitVec.ofNat 64 (s.state.code + (if s.inSlot.isSome then 4 else 0) + (if s.outSlot.isSome then 8 else 0))

/-- The data of STATUS(sel) (spec R241): 0 the packed state, 1 pc, 2 rb, any other 0. -/
def statusData (sel : Cell) (s : State) : Cell :=
  if sel = 0 then statusWord s
  else if sel = 1 then cellOfAddr s.pc
  else if sel = 2 then cellOfAddr s.rb
  else 0

/-- STATUS(sel) (spec R241): it never fails and changes nothing. -/
def hostStatus (sel : Cell) (s : State) : PortOutcome := .answered (.ok (statusData sel s)) s

/-- One host command the port has accepted, a single transaction (spec R230). `fuel` bounds the steps of a RUN, and only a RUN reads it. -/
def hostCommand (fuel : Nat) (c : Command) (s : State) : PortOutcome :=
  match c with
  | .new image => hostNew image s
  | .run => hostRun fuel s
  | .step => hostStep s
  | .input v => hostInput v s
  | .output => hostOutput s
  | .read a => hostRead a s
  | .write a v => hostWrite a v s
  | .status sel => hostStatus sel s

/-- Reset, at power-on or by `rst`, from any state and in the middle of a RUN too: "the state NEW([]) produces"
(spec R300). -/
def hostReset (_ : State) : State := State.reset

/-! ### The signal-level port (spec R243, decision D31): its fields, without the handshake -/

/-- The command channel: `cmd_op[2:0]`, `cmd_addr[63:0]`, `cmd_data[63:0]`. -/
structure PortRequest where
  op   : BitVec 3
  addr : Cell
  data : Cell
deriving DecidableEq, Repr

/-- The response channel: `rsp_status[3:0]`, `rsp_data[63:0]`. -/
structure PortResponse where
  status : BitVec 4
  data   : Cell
deriving DecidableEq, Repr

/-- The command a request stands for: "0 NEW, 1 RUN, 2 STEP, 3 INPUT, 4 OUTPUT, 5 READ, 6 WRITE, 7 STATUS"; NEW is
NEW([]), and the image follows as WRITEs (spec R243). -/
def PortRequest.command (q : PortRequest) : Command :=
  match q.op.toNat with
  | 0 => .new []
  | 1 => .run
  | 2 => .step
  | 3 => .input q.data
  | 4 => .output
  | 5 => .read q.addr
  | 6 => .write q.addr q.data
  | _ => .status q.addr

/-- A response on the wires. -/
def Response.signals (r : Response) : PortResponse :=
  { status := BitVec.ofNat 4 r.code, data := r.data }

end Sys2Proof.Machine
end

