-- ==== Sys2Proof/Machine/Port.lean ====
section
/-! DEFINITION. The command port as one transaction after another (spec R75, R230): a RUN in progress accepts no command, and
only its own response or reset ends it (R139, R244, R274, R300; log 14). -/

namespace Sys2Proof.Machine

/-- Whether the port accepts a command. -/
inductive PortState where
  /-- No command is in progress, and the next one is accepted. -/
  | ready (s : State)
  /-- A RUN is in progress and its steps have led to `s`, which nothing can observe (spec R139, U16). -/
  | running (s : State)
deriving DecidableEq, Repr

/-- The state of the block behind the port. -/
def PortState.machine : PortState → State
  | .ready s => s
  | .running s => s

/-- What can happen at the port: "Nothing from outside reaches a running RUN except reset" (spec R274). -/
inductive PortEvent where
  /-- The host issues a command; if it is a RUN, `fuel` of its steps are taken at most. -/
  | command (c : Command) (fuel : Nat)
  /-- A RUN in progress takes at most `fuel` further steps. -/
  | goOn (fuel : Nat)
  /-- Power-on, or `rst` asserted (spec R300). -/
  | reset
deriving DecidableEq, Repr

/-- What the host gets. -/
inductive PortReply where
  | response (r : Response)
  /-- No response: a RUN is in progress, or a reset has ended it. -/
  | silence
  /-- The command is not accepted: "the port holds the command back until the previous one completes" (spec R244). -/
  | heldBack
  /-- The command lies outside the port's domain (spec R231, D24). -/
  | refused (r : Refusal)
deriving DecidableEq, Repr

/-- The port after the outcome of a command, or of further steps of a RUN. -/
def PortState.settle (p : PortState) (o : PortOutcome) : PortReply × PortState :=
  match o with
  | .answered r t => (.response r, .ready t)
  | .noResponse t => (.silence, .running t)
  | .refused r => (.refused r, p)

/-- One event at the port (spec R230): a command is accepted only when none is in progress, and reset ends a RUN in
progress with no response (R300). -/
def portEvent (e : PortEvent) (p : PortState) : PortReply × PortState :=
  match e, p with
  | .command c fuel, .ready s => p.settle (hostCommand fuel c s)
  | .command _ _, .running _ => (.heldBack, p)
  | .goOn _, .ready _ => (.silence, p)
  | .goOn fuel, .running s => p.settle (runLoop fuel s)
  | .reset, _ => (.silence, .ready (hostReset p.machine))

end Sys2Proof.Machine
end

