-- ==== Sys2Proof/Machine/Instances.lean ====
section
/-! DEFINITION. Several instances (spec R7, R288): independent copies, each with its own state and its own port. Which of
them the next event reaches is the driver's business, outside the block (R246, U6; log 13). -/

namespace Sys2Proof.Machine

/-- An event at the port of instance `j` of several: it sees and changes that instance alone (spec R7). `none` where there
is no instance `j`. -/
def instancesEvent (j : Nat) (e : PortEvent) (ps : List PortState) : Option (PortReply × List PortState) :=
  match ps[j]? with
  | none => none
  | some p => some ((portEvent e p).1, ps.set j (portEvent e p).2)

end Sys2Proof.Machine
end

