-- ==== Sys2Proof/Safety.lean ====
section
/-! DEFINITION. The terms the claims are stated in: invariants, what stays unchanged, the states a run can reach. -/

namespace Sys2Proof.Machine

/-! ### Invariants -/

/-- The addresses written, in their canonical form: strictly rising and at most ADDR_MAX. -/
abbrev writtenWf (l : List Nat) : Prop := l.Pairwise (· < ·) ∧ ∀ a ∈ l, a ≤ Config.addrMax

/-- The invariant of a state: memory and the list of written addresses are canonical, and a cell that does not read 0
has been written, so that its page is allocated (spec R42, R63). -/
abbrev State.Inv (s : State) : Prop :=
  s.mem.wf ∧ writtenWf s.written ∧ ∀ x ∈ s.mem, x.1 ∈ s.written

/-- A step may proceed (spec R121). -/
abbrev State.Runnable (s : State) : Prop := s.state = .paused ∨ s.state = .running

/-! ### What stays unchanged -/

/-- Every cell reads as before. -/
def MemorySame (s t : State) : Prop := ∀ a : Addr, mcRead a t = mcRead a s

/-- Every cell but the one at `d` reads as before. -/
def MemorySameBut (d : Addr) (s t : State) : Prop := ∀ a : Addr, a ≠ d → mcRead a t = mcRead a s

/-- The allocated pages are as before. -/
def PagesSame (s t : State) : Prop := ∀ p, t.PageAllocated p ↔ s.PageAllocated p

/-- The page of `d` is allocated, and every other page is as before (spec R63). -/
def PagesWith (d : Addr) (s t : State) : Prop :=
  ∀ p, t.PageAllocated p ↔ (s.PageAllocated p ∨ pageBase d.toNat = p)

/-- Both I/O slots are as before. -/
def SlotsSame (s t : State) : Prop := t.inSlot = s.inSlot ∧ t.outSlot = s.outSlot

/-- `t` is `s` after an instruction has stored `r` at `d` and advanced by `width`, and nothing else. -/
def StoredAndAdvanced (d : Addr) (r : Cell) (width : Nat) (s t : State) : Prop :=
  mcRead d t = r ∧ MemorySameBut d s t ∧ PagesWith d s t ∧ t.pc.toNat = s.pc.toNat + width ∧
    t.rb = s.rb ∧ t.state = s.state ∧ SlotsSame s t

/-- `t` is `s` but for the program counter. -/
def OnlyPcChanged (s t : State) : Prop :=
  MemorySame s t ∧ PagesSame s t ∧ t.rb = s.rb ∧ t.state = s.state ∧ SlotsSame s t

/-- `i` is a three-operand instruction (format F3) with these operands. -/
def ThreeOperand (i : Instr) (s0 s1 d2 : Operand) : Prop :=
  i = .add s0 s1 d2 ∨ i = .multiply s0 s1 d2 ∨ i = .lessThan s0 s1 d2 ∨ i = .equals s0 s1 d2

/-! ### Memory as a history of writes (spec R64, R74) -/

/-- The state after a sequence of writes, the first first. -/
def writeAll (ws : List (Addr × Cell)) (s : State) : State := ws.foldl (fun t w => mcWrite w.1 w.2 t) s

/-- "the value of the last write to a, or 0 if none" (spec R64). -/
def lastWrite (ws : List (Addr × Cell)) (a : Addr) : Cell :=
  ws.foldl (fun v w => if w.1 = a then w.2 else v) 0

/-! ### Fetch -/

/-- The cells from pc on, as many as the longest instruction has and as exist (spec R90, R124). -/
def cellsAtPc (s : State) : List Cell :=
  (List.range (min 4 (Config.addrMax + 1 - s.pc.toNat))).map (fun j => s.mem.readAt (s.pc.toNat + j))

/-! ### Runs -/

/-- `n` steps of a RUN's loop lead from `s` to `t`, each of them leaving Running (spec R135). -/
inductive RunningSteps : Nat → State → State → Prop where
  | refl (s : State) : RunningSteps 0 s s
  | cons {n : Nat} {s t u : State} (h : step s = .next t) (hr : t.state = .running) (hs : RunningSteps n t u) :
      RunningSteps (n + 1) s u

/-- "An instance's execution *ends* when a RUN or STEP response reports Halted" (spec R247): the command was one of the two, it
raised no error, and the instance is then Halted. -/
def EndsExecution (c : Command) (o : PortOutcome) : Prop :=
  (c = .run ∨ c = .step) ∧ ∃ d t, o = .answered (.ok d) t ∧ t.state = .halted

/-- What is reachable from reset "by any sequence of host commands and steps" (spec R44): every step is one of a STEP or of
a RUN (R6), and a RUN goes on by `goOn`. -/
inductive Reachable : PortState → Prop where
  | reset : Reachable (.ready State.reset)
  | event {p : PortState} (e : PortEvent) (h : Reachable p) : Reachable (portEvent e p).2

end Sys2Proof.Machine
end

