-- ==== Sys2Proof/Certificates/Slice0/Obligations.lean ====
section
/-! DEFINITION. The statements about the model, taken from the rules of spec/ file by file. Where a rule carries one of the
spec's own decisions (D<n>) or an inference it marks [derived], the docstring names it. -/

open Sys2Proof Sys2Proof.Machine

/-! ### Reset and state (spec 10_state.md, 70_reset_and_hazards.md) -/

/-- Reset leaves every cell 0, no page allocated, pc and rb 0, Paused, both slots empty (R300; the values pc = 0 and rb = 0 are
marked [derived] in R45, log 10, the empty slots are decision D25, reset itself decision D22), and the first step then fetches a
0, which is no opcode (R122). -/
def Obligations.ResetLeavesTheEmptyInstance : Prop :=
  (∀ s, hostReset s = State.reset) ∧ (∀ a, mcRead a State.reset = 0) ∧ (∀ p, ¬ State.reset.PageAllocated p) ∧
    State.reset.pc.toNat = 0 ∧ State.reset.rb.toNat = 0 ∧ State.reset.state = .paused ∧
    State.reset.inSlot = none ∧ State.reset.outSlot = none ∧ step State.reset = .fault .unknownOpcode

/-- The invariant holds at reset. It is the model's own, not R44's: the canonical form in which it holds memory (log 1) and the
list of written addresses (log 2), and that a listed cell has been written. -/
def Obligations.InvHoldsAtReset : Prop := State.reset.Inv

/-- Every step keeps the invariant, from every state that has it: memory and the list of written addresses stay canonical
(log 1, log 2), and a cell that does not read 0 lies in an allocated page. -/
def Obligations.StepKeepsInv : Prop :=
  ∀ s t : State, s.Inv → step s = .next t → t.Inv

/-- Every host command keeps the model's own invariant, the canonical form of memory (log 1) and of the list of written
addresses (log 2), and so does a RUN in progress. -/
def Obligations.HostCommandKeepsInv : Prop :=
  ∀ (s : State) (fuel : Nat) (c : Command), s.Inv →
    (∀ r t, hostCommand fuel c s = .answered r t → t.Inv) ∧ (∀ t, hostCommand fuel c s = .noResponse t → t.Inv)

/-- Every state reached from reset by host commands, their steps and resets has the model's own invariant, the canonical form
of memory (log 1) and of the list of written addresses (log 2); a page not allocated in it reads 0 throughout (R62, R63); and
while a RUN is in progress (log 14) it is Running (R136, marked [derived]). -/
def Obligations.ReachableStatesHaveInv : Prop :=
  ∀ p : PortState, Reachable p →
    p.machine.Inv ∧ (∀ a : Addr, ¬ p.machine.PageAllocated (pageBase a.toNat) → mcRead a p.machine = 0) ∧
      ∀ s, p = .running s → s.state = .running

/-- What each instruction does to the execution state, and each host command (R36). RUN sets Running and enters its loop;
STEP's effect is its instruction's. -/
def Obligations.ExecutionStateIsWrittenAsListed : Prop :=
  (∀ i s t, exec i s = .next t →
    t.state = match i with
      | .input _ => if s.inSlot = none then .blocked else s.state
      | .output _ => .blocked
      | .halt => .halted
      | .add _ _ _ => s.state
      | .multiply _ _ _ => s.state
      | .lessThan _ _ _ => s.state
      | .equals _ _ _ => s.state
      | .jumpIfTrue _ _ => s.state
      | .jumpIfFalse _ _ => s.state
      | .adjustRelativeBase _ => s.state) ∧
  (∀ fuel s, s.state ≠ .halted →
    hostCommand fuel .run s = runLoop fuel (s.setExec .running) ∧ (s.setExec .running).state = .running) ∧
  (∀ fuel s r t, hostCommand fuel .step s = .answered r t →
    step s = .next t ∨ t.state = s.state) ∧
  (∀ fuel prog s r t, prog.length ≤ Config.addrMax + 1 → hostCommand fuel (.new prog) s = .answered r t →
    t.state = .paused) ∧
  (∀ s, (hostReset s).state = .paused) ∧
  (∀ fuel v s r t, hostCommand fuel (.input v) s = .answered r t → t.state = s.state) ∧
  (∀ fuel s r t, hostCommand fuel .output s = .answered r t → t.state = s.state) ∧
  (∀ fuel a s r t, hostCommand fuel (.read a) s = .answered r t → t.state = s.state) ∧
  (∀ fuel a v s r t, hostCommand fuel (.write a v) s = .answered r t → t.state = s.state) ∧
  (∀ fuel sel s r t, hostCommand fuel (.status sel) s = .answered r t → t.state = s.state)

/-- Only AdjustRelativeBase moves the relative base (R34), and it moves it by its operand's value. -/
def Obligations.OnlyAdjustMovesTheRelativeBase : Prop :=
  ∀ i s t, exec i s = .next t → t.rb ≠ s.rb →
    ∃ o v, i = .adjustRelativeBase o ∧ srcValue o s = .ok v ∧ (t.rb.toNat : Int) = s.rb.toNat + v.toInt

/-- The program counter stays, moves by the instruction's width, or goes to a jump's target value (R33, R195); it stays for
Halt alone (decision D14) and for an Input that blocks. -/
def Obligations.PcStaysAdvancesOrJumps : Prop :=
  ∀ i s t, exec i s = .next t →
    (t.pc = s.pc ∧ (i = .halt ∨ (∃ o, i = .input o) ∧ s.inSlot = none)) ∨
    t.pc.toNat = s.pc.toNat + i.opcode.width ∨
    ∃ s0 s1 v, (i = .jumpIfTrue s0 s1 ∨ i = .jumpIfFalse s0 s1) ∧ srcValue s1 s = .ok v ∧
      (t.pc.toNat : Int) = v.toInt

/-- Only Input empties the pending-input slot, and only a full one; only Output fills the pending-output slot (R37, R38). -/
def Obligations.SlotsChangeOnlyByInputAndOutput : Prop :=
  ∀ i s t, exec i s = .next t →
    (t.inSlot ≠ s.inSlot → ∃ o v, i = .input o ∧ s.inSlot = some v ∧ t.inSlot = none) ∧
    (t.outSlot ≠ s.outSlot → ∃ o v, i = .output o ∧ srcValue o s = .ok v ∧ t.outSlot = some v)

/-! ### Memory (spec 20_memory.md) -/

/-- A cell reads back what was written to it until the next write to it; a write changes no other cell; a fresh address space
reads 0 (R65). -/
def Obligations.CellsReadBackUntilOverwritten : Prop :=
  (∀ (a : Addr) (v : Cell) (s : State) (ws : List (Addr × Cell)), (∀ w ∈ ws, w.1 ≠ a) →
    mcRead a (writeAll ws (mcWrite a v s)) = v) ∧
  (∀ (a b : Addr) (v : Cell) (s : State), b ≠ a → mcRead b (mcWrite a v s) = mcRead b s) ∧
  (∀ a : Addr, mcRead a State.reset = 0)

/-- A write sets its cell, leaves every other cell, and allocates its page on demand; a page it allocates held, and so
keeps, zeros in all its other cells (R63). -/
def Obligations.WriteSetsOneCellAndAllocatesItsPage : Prop :=
  ∀ (a : Addr) (v : Cell) (s : State),
    mcRead a (mcWrite a v s) = v ∧ MemorySameBut a s (mcWrite a v s) ∧ PagesWith a s (mcWrite a v s) ∧
    (s.Inv → ¬ s.PageAllocated (pageBase a.toNat) →
      ∀ b : Addr, pageBase b.toNat = pageBase a.toNat → b ≠ a → mcRead b (mcWrite a v s) = 0)

/-- After any sequence of writes to a fresh address space, each cell holds the last value written to it, or 0 (R64, which the
spec marks [derived]). -/
def Obligations.MemoryHoldsTheLastWrite : Prop :=
  ∀ (ws : List (Addr × Cell)) (a : Addr), mcRead a (writeAll ws State.reset) = lastWrite ws a

/-- The bulk load (R66 to R68; the edge cases are decision D27): an unaligned start fails whatever the list, an aligned one
past the top of memory fails, and else the list lands cell by cell, the pages of its cells are allocated, and nothing else
changes: no other cell, no other page, no register or slot. -/
def Obligations.BulkLoadChecksThenWritesInOrder : Prop :=
  ∀ (start : Addr) (vs : List Cell) (s : State),
    (start.toNat % Config.pageLen ≠ 0 → mcLoad start vs s = .error .memoryAlignment) ∧
    (start.toNat % Config.pageLen = 0 → Config.addrMax + 1 < start.toNat + vs.length →
      mcLoad start vs s = .error .arithmeticOverflow) ∧
    (start.toNat % Config.pageLen = 0 → start.toNat + vs.length ≤ Config.addrMax + 1 →
      ∃ t, mcLoad start vs s = .ok t ∧
        (∀ (j : Nat) (h : j < vs.length) (a : Addr), a.toNat = start.toNat + j → mcRead a t = vs[j]) ∧
        (∀ a : Addr, a.toNat < start.toNat ∨ start.toNat + vs.length ≤ a.toNat → mcRead a t = mcRead a s) ∧
        (∀ p, t.PageAllocated p ↔ s.PageAllocated p ∨ ∃ j, j < vs.length ∧ pageBase (start.toNat + j) = p) ∧
        t.pc = s.pc ∧ t.rb = s.rb ∧ t.state = s.state ∧ SlotsSame s t)

/-- A page once allocated stays allocated, whatever instruction runs and whatever command but NEW is answered (R42). -/
def Obligations.AllocatedPagesStayAllocated : Prop :=
  (∀ i s t p, exec i s = .next t → s.PageAllocated p → t.PageAllocated p) ∧
  (∀ fuel c s r t p, (∀ image, c ≠ .new image) → hostCommand fuel c s = .answered r t → s.PageAllocated p →
    t.PageAllocated p)

/-- No instruction and no host command can observe the allocated pages: from two states that differ in the record of them alone,
a step and every command give the same error, the same response or the same silence, and states that differ in it alone
(R42, which the spec marks [derived]; log 2). -/
def Obligations.PagesAreUnobservable : Prop :=
  ∀ (s : State) (l : List Nat),
    (∀ t, step s = .next t → ∃ l', step { s with written := l } = .next { t with written := l' }) ∧
    (∀ f, step s = .fault f → step { s with written := l } = .fault f) ∧
    ∀ (fuel : Nat) (c : Command),
      (∀ r t, hostCommand fuel c s = .answered r t →
        ∃ l', hostCommand fuel c { s with written := l } = .answered r { t with written := l' }) ∧
      (∀ t, hostCommand fuel c s = .noResponse t →
        ∃ l', hostCommand fuel c { s with written := l } = .noResponse { t with written := l' }) ∧
      (∀ r, hostCommand fuel c s = .refused r → hostCommand fuel c { s with written := l } = .refused r)

/-! ### Encoding (spec 30_encoding.md) -/

/-- Decoding the cells of an instruction gives it back, with whatever follows them: every instruction, every mode and
every literal (R101, R106). -/
def Obligations.DecodeReadsBackEncode : Prop :=
  (∀ (i : Instr) (rest : List Cell), decode (encode i ++ rest) = .ok (i, rest)) ∧
  (∀ (i : Instr) (cells : List Cell), assembleInstr i = some cells → decode cells = .ok (i, []))

/-- The words of the source's programs decode as R104's table says, a table the spec marks [derived]; that 6 is JumpIfFalse and
8 Equals, in 1006 and 1008, is decision D8 (log 9). -/
def Obligations.SourceWordsDecodeAsListed : Prop :=
  decodeWord 1 = .ok ⟨.add, .position, .position, .position⟩ ∧
  decodeWord 2 = .ok ⟨.multiply, .position, .position, .position⟩ ∧
  decodeWord 3 = .ok ⟨.input, .position, .position, .position⟩ ∧
  decodeWord 4 = .ok ⟨.output, .position, .position, .position⟩ ∧
  decodeWord 99 = .ok ⟨.halt, .position, .position, .position⟩ ∧
  decodeWord 1002 = .ok ⟨.multiply, .position, .immediate, .position⟩ ∧
  decodeWord 104 = .ok ⟨.output, .immediate, .position, .position⟩ ∧
  decodeWord 109 = .ok ⟨.adjustRelativeBase, .immediate, .position, .position⟩ ∧
  decodeWord 204 = .ok ⟨.output, .relative, .position, .position⟩ ∧
  decodeWord 1001 = .ok ⟨.add, .position, .immediate, .position⟩ ∧
  decodeWord 1008 = .ok ⟨.equals, .position, .immediate, .position⟩ ∧
  decodeWord 1006 = .ok ⟨.jumpIfFalse, .position, .immediate, .position⟩

/-- The opcode is `w mod 100` of a word that is not negative, and any other word is UnknownOpcode (R93; a negative word is
decision D5); and R92's numbers: 1, 2, 3, 4, 9 and 99 as the source's examples force them, 6 and 8 by decision D8, 5
(JumpIfTrue) and 7 (LessThan) from general knowledge, which the spec marks so (G1, log 9). -/
def Obligations.OpcodeIsTheWordModulo100 : Prop :=
  (∀ w : Cell,
    (∀ k : Opcode, decodeOpcode w = .ok k ↔ 0 ≤ w.toInt ∧ w.toInt % 100 = k.number) ∧
    (w.toInt < 0 → decodeWord w = .error .unknownOpcode) ∧
    ((∀ k : Opcode, w.toInt % 100 ≠ k.number) → decodeWord w = .error .unknownOpcode)) ∧
  Opcode.add.number = 1 ∧ Opcode.multiply.number = 2 ∧ Opcode.input.number = 3 ∧ Opcode.output.number = 4 ∧
  Opcode.jumpIfTrue.number = 5 ∧ Opcode.jumpIfFalse.number = 6 ∧ Opcode.lessThan.number = 7 ∧ Opcode.equals.number = 8 ∧
  Opcode.adjustRelativeBase.number = 9 ∧ Opcode.halt.number = 99

/-- With a defined opcode, digits 2, 3 and 4 are the three modes, 0 Position, 1 Immediate and 2 Relative, checked whatever the
opcode: 3 to 9 is UnknownParameterMode (R94; decision D6). -/
def Obligations.ModeDigitsAreAllChecked : Prop :=
  (Mode.position.number = 0 ∧ Mode.immediate.number = 1 ∧ Mode.relative.number = 2) ∧
  ∀ (w : Cell) (k : Opcode), decodeOpcode w = .ok k →
    (∀ m0 m1 m2 : Mode, decodeWord w = .ok ⟨k, m0, m1, m2⟩ ↔
      (w.toInt / 100 % 10 = m0.number ∧ w.toInt / 1000 % 10 = m1.number ∧ w.toInt / 10000 % 10 = m2.number)) ∧
    (3 ≤ w.toInt / 100 % 10 ∨ 3 ≤ w.toInt / 1000 % 10 ∨ 3 ≤ w.toInt / 10000 % 10 →
      decodeWord w = .error .unknownParameterMode)

/-- Digits 5 and above take no part in decoding, nor do the modes of operand positions the opcode lacks (R95, R101;
decision D6). -/
def Obligations.SpareDigitsMeanNothing : Prop :=
  (∀ w w' : Cell, 0 ≤ w.toInt → 0 ≤ w'.toInt → w.toInt % 100000 = w'.toInt % 100000 → decodeWord w = decodeWord w') ∧
  (∀ (f g : WordFields) (raw : Nat → Cell), f.op = g.op →
    (1 ≤ f.op.operandCount → f.m0 = g.m0) → (2 ≤ f.op.operandCount → f.m1 = g.m1) →
    (3 ≤ f.op.operandCount → f.m2 = g.m2) → f.assemble raw = g.assemble raw)

/-- An instruction takes as many cells as its opcode says, and its opcode is its word's (R97, R100): 4 for the three-operand
instructions, 3 for the jumps, 2 for Input, Output and AdjustRelativeBase, 1 for Halt, which the spec marks [derived]. -/
def Obligations.LengthFollowsTheOpcodeAlone : Prop :=
  (∀ (w : Cell) (cells rest : List Cell) (i : Instr), decode (w :: cells) = .ok (i, rest) →
    decodeOpcode w = .ok i.opcode ∧ cells.length + 1 = i.opcode.width + rest.length ∧
      w :: cells = (w :: cells).take i.opcode.width ++ rest) ∧
  ∀ k : Opcode, k.width = match k with
    | .add => 4
    | .multiply => 4
    | .lessThan => 4
    | .equals => 4
    | .jumpIfTrue => 3
    | .jumpIfFalse => 3
    | .input => 2
    | .output => 2
    | .adjustRelativeBase => 2
    | .halt => 1

/-! ### The step (spec 40_execution_cycle.md) -/

/-- A step in Halted raises MachineHalted and in Blocked MachineBlocked, whatever memory holds; in Paused and Running it
raises neither (R121). -/
def Obligations.StepPreconditionByState : Prop :=
  (∀ s : State, s.state = .halted → step s = .fault .machineHalted) ∧
  (∀ s : State, s.state = .blocked → step s = .fault .machineBlocked) ∧
  (∀ s : State, s.state = .paused ∨ s.state = .running →
    step s ≠ .fault .machineHalted ∧ step s ≠ .fault .machineBlocked)

/-- Where the cells at pc decode to an instruction, a step that may proceed is that instruction's execution in the same state:
the step adds nothing around it (R120, R132). -/
def Obligations.StepRunsTheDecodedInstruction : Prop :=
  ∀ (s : State) (i : Instr) (rest : List Cell), s.Runnable → decode (cellsAtPc s) = .ok (i, rest) → step s = exec i s

/-- The step decodes the cell at pc as it is at that moment: a word that does not decode ends the step with its error, a word
that decodes with neither; never-written memory is UnknownOpcode; and a word just written, by a step or by the host, counts,
not the one before it (R122). -/
def Obligations.FetchReadsTheCurrentCell : Prop :=
  ∀ s : State, s.Runnable →
    (decodeWord (mcRead s.pc s) = .error .unknownOpcode → step s = .fault .unknownOpcode) ∧
    (decodeWord (mcRead s.pc s) = .error .unknownParameterMode → step s = .fault .unknownParameterMode) ∧
    (∀ f, decodeWord (mcRead s.pc s) = .ok f →
      step s ≠ .fault .unknownOpcode ∧ step s ≠ .fault .unknownParameterMode) ∧
    (mcRead s.pc s = 0 → step s = .fault .unknownOpcode) ∧
    (∀ w : Cell,
      (decodeWord w = .error .unknownOpcode → step (mcWrite s.pc w s) = .fault .unknownOpcode) ∧
      (decodeWord w = .error .unknownParameterMode → step (mcWrite s.pc w s) = .fault .unknownParameterMode) ∧
      (∀ f, decodeWord w = .ok f → step (mcWrite s.pc w s) ≠ .fault .unknownOpcode ∧
        step (mcWrite s.pc w s) ≠ .fault .unknownParameterMode))

/-- An instruction whose literals would lie past the top of memory raises ArithmeticOverflow (R124, decision D4). -/
def Obligations.LiteralsPastTheTopFault : Prop :=
  ∀ (s : State) (f : WordFields), s.Runnable → decodeWord (mcRead s.pc s) = .ok f →
    Config.addrMax < s.pc.toNat + f.op.operandCount → step s = .fault .arithmeticOverflow

/-- The value of a source operand in each mode, and its errors (R123, R125; an address above ADDR_MAX is decision D4). -/
def Obligations.SourceValueByMode : Prop :=
  ∀ (raw : Cell) (s : State),
    srcValue ⟨.immediate, raw⟩ s = .ok raw ∧
    (∀ a : Addr, (a.toNat : Int) = raw.toInt → srcValue ⟨.position, raw⟩ s = .ok (mcRead a s)) ∧
    (raw.toInt < 0 → srcValue ⟨.position, raw⟩ s = .error .negativeAddress) ∧
    (∀ a : Addr, (a.toNat : Int) = s.rb.toNat + raw.toInt → srcValue ⟨.relative, raw⟩ s = .ok (mcRead a s)) ∧
    (s.rb.toNat + raw.toInt < 0 → srcValue ⟨.relative, raw⟩ s = .error .negativeAddress) ∧
    (Config.addrMax < s.rb.toNat + raw.toInt → srcValue ⟨.relative, raw⟩ s = .error .arithmeticOverflow)

/-- The address of a destination operand in each mode, and its errors (R123, R126; above ADDR_MAX: decision D4). -/
def Obligations.DestinationAddressByMode : Prop :=
  ∀ (raw : Cell) (s : State),
    dstAddr ⟨.immediate, raw⟩ s = .error .immediateDestination ∧
    (∀ a : Addr, (a.toNat : Int) = raw.toInt → dstAddr ⟨.position, raw⟩ s = .ok a) ∧
    (raw.toInt < 0 → dstAddr ⟨.position, raw⟩ s = .error .negativeAddress) ∧
    (∀ a : Addr, (a.toNat : Int) = s.rb.toNat + raw.toInt → dstAddr ⟨.relative, raw⟩ s = .ok a) ∧
    (s.rb.toNat + raw.toInt < 0 → dstAddr ⟨.relative, raw⟩ s = .error .negativeAddress) ∧
    (Config.addrMax < s.rb.toNat + raw.toInt → dstAddr ⟨.relative, raw⟩ s = .error .arithmeticOverflow)

/-- The lowest-indexed operand that fails gives the error, before any check of the opcode's own; a jump's target operand fails
too when the jump would not be taken (R127, R128, R194; decisions D7, D15). -/
def Obligations.OperandErrorsComeInIndexOrder : Prop :=
  (∀ i s0 s1 d2 s f, ThreeOperand i s0 s1 d2 →
    (srcValue s0 s = .error f → exec i s = .fault f) ∧
    (∀ a, srcValue s0 s = .ok a → srcValue s1 s = .error f → exec i s = .fault f) ∧
    (∀ a b, srcValue s0 s = .ok a → srcValue s1 s = .ok b → dstAddr d2 s = .error f → exec i s = .fault f)) ∧
  (∀ i s0 s1 s f, i = .jumpIfTrue s0 s1 ∨ i = .jumpIfFalse s0 s1 →
    (srcValue s0 s = .error f → exec i s = .fault f) ∧
    (∀ c, srcValue s0 s = .ok c → srcValue s1 s = .error f → exec i s = .fault f)) ∧
  (∀ i s0 s f, i = .output s0 ∨ i = .adjustRelativeBase s0 → srcValue s0 s = .error f → exec i s = .fault f) ∧
  (∀ d0 s f, dstAddr d0 s = .error f → exec (.input d0) s = .fault f)

/-- An instruction that would advance past the top of memory raises ArithmeticOverflow, its other checks passed (R131,
decision D4). -/
def Obligations.AdvancePastTheTopFaults : Prop :=
  (∀ i s0 s1 d2 s a b d, ThreeOperand i s0 s1 d2 → srcValue s0 s = .ok a → srcValue s1 s = .ok b → dstAddr d2 s = .ok d →
    Config.addrMax < s.pc.toNat + 4 → exec i s = .fault .arithmeticOverflow) ∧
  (∀ s0 s1 s c t, srcValue s0 s = .ok c → srcValue s1 s = .ok t → Config.addrMax < s.pc.toNat + 3 →
    (c.toInt = 0 → exec (.jumpIfTrue s0 s1) s = .fault .arithmeticOverflow) ∧
    (c.toInt ≠ 0 → exec (.jumpIfFalse s0 s1) s = .fault .arithmeticOverflow)) ∧
  (∀ s0 s v, srcValue s0 s = .ok v → Config.addrMax < s.pc.toNat + 2 →
    exec (.output s0) s = .fault .arithmeticOverflow) ∧
  (∀ s0 s v, srcValue s0 s = .ok v → 0 ≤ s.rb.toNat + v.toInt → Config.addrMax < s.pc.toNat + 2 →
    exec (.adjustRelativeBase s0) s = .fault .arithmeticOverflow) ∧
  (∀ d0 s d v, dstAddr d0 s = .ok d → s.inSlot = some v → Config.addrMax < s.pc.toNat + 2 →
    exec (.input d0) s = .fault .arithmeticOverflow)

/-! ### Arithmetic and comparison (spec 41_arith_compare.md) -/

/-- Add completes with the exact sum at its destination, pc 4 further, and nothing else changed (R150). -/
def Obligations.AddStoresTheExactSum : Prop :=
  ∀ s0 s1 d2 s a b d, srcValue s0 s = .ok a → srcValue s1 s = .ok b → dstAddr d2 s = .ok d →
    Config.cellMin ≤ a.toInt + b.toInt → a.toInt + b.toInt ≤ Config.cellMax → s.pc.toNat + 4 ≤ Config.addrMax →
    ∃ r t, exec (.add s0 s1 d2) s = .next t ∧ r.toInt = a.toInt + b.toInt ∧ StoredAndAdvanced d r 4 s t

/-- Multiply completes with the exact product at its destination, pc 4 further, and nothing else changed (R152). -/
def Obligations.MultiplyStoresTheExactProduct : Prop :=
  ∀ s0 s1 d2 s a b d, srcValue s0 s = .ok a → srcValue s1 s = .ok b → dstAddr d2 s = .ok d →
    Config.cellMin ≤ a.toInt * b.toInt → a.toInt * b.toInt ≤ Config.cellMax → s.pc.toNat + 4 ≤ Config.addrMax →
    ∃ r t, exec (.multiply s0 s1 d2) s = .next t ∧ r.toInt = a.toInt * b.toInt ∧ StoredAndAdvanced d r 4 s t

/-- LessThan completes with 1 or 0 at its destination, by the signed comparison, pc 4 further, and nothing else changed
(R154). -/
def Obligations.LessThanStoresItsTruthValue : Prop :=
  ∀ s0 s1 d2 s a b d, srcValue s0 s = .ok a → srcValue s1 s = .ok b → dstAddr d2 s = .ok d →
    s.pc.toNat + 4 ≤ Config.addrMax →
    ∃ r t, exec (.lessThan s0 s1 d2) s = .next t ∧ (a.toInt < b.toInt → r.toInt = 1) ∧
      (b.toInt ≤ a.toInt → r.toInt = 0) ∧ StoredAndAdvanced d r 4 s t

/-- Equals completes with 1 or 0 at its destination, pc 4 further, and nothing else changed (R156). -/
def Obligations.EqualsStoresItsTruthValue : Prop :=
  ∀ s0 s1 d2 s a b d, srcValue s0 s = .ok a → srcValue s1 s = .ok b → dstAddr d2 s = .ok d →
    s.pc.toNat + 4 ≤ Config.addrMax →
    ∃ r t, exec (.equals s0 s1 d2) s = .next t ∧ (a.toInt = b.toInt → r.toInt = 1) ∧
      (a.toInt ≠ b.toInt → r.toInt = 0) ∧ StoredAndAdvanced d r 4 s t

/-- A sum or a product outside the cell range raises ArithmeticOverflow: no wrap, no saturation (R149, decision D4). -/
def Obligations.ResultsOutsideTheCellRangeFault : Prop :=
  ∀ s0 s1 d2 s a b d, srcValue s0 s = .ok a → srcValue s1 s = .ok b → dstAddr d2 s = .ok d →
    (a.toInt + b.toInt < Config.cellMin ∨ Config.cellMax < a.toInt + b.toInt →
      exec (.add s0 s1 d2) s = .fault .arithmeticOverflow) ∧
    (a.toInt * b.toInt < Config.cellMin ∨ Config.cellMax < a.toInt * b.toInt →
      exec (.multiply s0 s1 d2) s = .fault .arithmeticOverflow)

/-- The frame of the three-operand instructions: only the cell at the destination's address and pc change. -/
def Obligations.ThreeOperandFrame : Prop :=
  ∀ i s0 s1 d2 s t, ThreeOperand i s0 s1 d2 → exec i s = .next t →
    ∃ d, dstAddr d2 s = .ok d ∧ MemorySameBut d s t ∧ PagesWith d s t ∧ t.rb = s.rb ∧ t.state = s.state ∧ SlotsSame s t

/-! ### Input and output (spec 42_io.md) -/

/-- Input with a pending value completes: the value lands at the destination, the slot empties, pc is 2 further, and nothing
else changes (R170). -/
def Obligations.InputTakesThePendingValue : Prop :=
  ∀ d0 s d v, dstAddr d0 s = .ok d → s.inSlot = some v → s.pc.toNat + 2 ≤ Config.addrMax →
    ∃ t, exec (.input d0) s = .next t ∧ mcRead d t = v ∧ MemorySameBut d s t ∧ PagesWith d s t ∧
      t.inSlot = none ∧ t.pc.toNat = s.pc.toNat + 2 ∧ t.rb = s.rb ∧ t.state = s.state ∧ t.outSlot = s.outSlot

/-- Input with no pending value blocks, whatever pc is, and changes nothing else, pc included (R170). -/
def Obligations.InputBlocksOnAnEmptySlot : Prop :=
  ∀ d0 s d, dstAddr d0 s = .ok d → s.inSlot = none →
    ∃ t, exec (.input d0) s = .next t ∧ t.state = .blocked ∧ t.pc = s.pc ∧ MemorySame s t ∧ PagesSame s t ∧
      t.rb = s.rb ∧ SlotsSame s t

/-- The frame of Input: it stores at its destination's address, and there only if a value is pending; the relative base and
the output slot stay. -/
def Obligations.InputFrame : Prop :=
  ∀ d0 s t, exec (.input d0) s = .next t →
    ∃ d, dstAddr d0 s = .ok d ∧ MemorySameBut d s t ∧ (s.inSlot = none → MemorySame s t ∧ PagesSame s t) ∧
      (s.inSlot ≠ none → PagesWith d s t) ∧ t.rb = s.rb ∧ t.outSlot = s.outSlot

/-- Output completes: its value is in the slot, over whatever was there, the engine blocks, pc is 2 further, and nothing else
changes (R175; the overwrite is decision D9). -/
def Obligations.OutputFillsTheSlotAndBlocks : Prop :=
  ∀ s0 s v, srcValue s0 s = .ok v → s.pc.toNat + 2 ≤ Config.addrMax →
    ∃ t, exec (.output s0) s = .next t ∧ t.outSlot = some v ∧ t.state = .blocked ∧
      t.pc.toNat = s.pc.toNat + 2 ∧ MemorySame s t ∧ PagesSame s t ∧ t.rb = s.rb ∧ t.inSlot = s.inSlot

/-! ### Jumps (spec 43_jumps.md) -/

/-- JumpIfTrue completes: any value but 0 takes the jump to the target's value, 0 advances by 3; only pc changes (R190; the
value is not checked when the jump is not taken, decision D15). -/
def Obligations.JumpIfTrueJumpsOnNonZero : Prop :=
  ∀ s0 s1 s c v, srcValue s0 s = .ok c → srcValue s1 s = .ok v →
    (c.toInt ≠ 0 → 0 ≤ v.toInt →
      ∃ t, exec (.jumpIfTrue s0 s1) s = .next t ∧ (t.pc.toNat : Int) = v.toInt ∧ OnlyPcChanged s t) ∧
    (c.toInt = 0 → s.pc.toNat + 3 ≤ Config.addrMax →
      ∃ t, exec (.jumpIfTrue s0 s1) s = .next t ∧ t.pc.toNat = s.pc.toNat + 3 ∧ OnlyPcChanged s t)

/-- JumpIfFalse completes: only 0 takes the jump to the target's value, any other value advances by 3; only pc changes (R192;
decision D15). -/
def Obligations.JumpIfFalseJumpsOnZero : Prop :=
  ∀ s0 s1 s c v, srcValue s0 s = .ok c → srcValue s1 s = .ok v →
    (c.toInt = 0 → 0 ≤ v.toInt →
      ∃ t, exec (.jumpIfFalse s0 s1) s = .next t ∧ (t.pc.toNat : Int) = v.toInt ∧ OnlyPcChanged s t) ∧
    (c.toInt ≠ 0 → s.pc.toNat + 3 ≤ Config.addrMax →
      ∃ t, exec (.jumpIfFalse s0 s1) s = .next t ∧ t.pc.toNat = s.pc.toNat + 3 ∧ OnlyPcChanged s t)

/-- A taken jump to a negative value raises NegativeAddress (R190, R192, R195). -/
def Obligations.TakenJumpToANegativeTargetFaults : Prop :=
  ∀ s0 s1 s c v, srcValue s0 s = .ok c → srcValue s1 s = .ok v → v.toInt < 0 →
    (c.toInt ≠ 0 → exec (.jumpIfTrue s0 s1) s = .fault .negativeAddress) ∧
    (c.toInt = 0 → exec (.jumpIfFalse s0 s1) s = .fault .negativeAddress)

/-! ### Relative base and halt (spec 44_base_and_halt.md) -/

/-- AdjustRelativeBase completes: the base moves by the value, read with the old base, pc is 2 further, and nothing else
changes (R210; the bound ADDR_MAX is decision D4). -/
def Obligations.AdjustMovesTheBaseByItsOperand : Prop :=
  ∀ s0 s v, srcValue s0 s = .ok v → 0 ≤ s.rb.toNat + v.toInt → s.rb.toNat + v.toInt ≤ Config.addrMax →
    s.pc.toNat + 2 ≤ Config.addrMax →
    ∃ t, exec (.adjustRelativeBase s0) s = .next t ∧ (t.rb.toNat : Int) = s.rb.toNat + v.toInt ∧
      t.pc.toNat = s.pc.toNat + 2 ∧ MemorySame s t ∧ PagesSame s t ∧ t.state = s.state ∧ SlotsSame s t

/-- A new base below 0 raises NegativeAddress, one above ADDR_MAX ArithmeticOverflow (R210; conflict C4, decision D4). -/
def Obligations.BaseOutsideTheAddressRangeFaults : Prop :=
  ∀ s0 s v, srcValue s0 s = .ok v →
    (s.rb.toNat + v.toInt < 0 → exec (.adjustRelativeBase s0) s = .fault .negativeAddress) ∧
    (Config.addrMax < s.rb.toNat + v.toInt → exec (.adjustRelativeBase s0) s = .fault .arithmeticOverflow)

/-- The frames of the instructions that store nothing: Output leaves memory, the allocated pages, the relative base and the
input slot; a jump everything but pc; AdjustRelativeBase memory, the pages, the execution state and both slots; Halt everything
but the execution state (that pc stays at Halt is decision D14, log 11). -/
def Obligations.StorelessInstructionFrames : Prop :=
  (∀ s0 s t, exec (.output s0) s = .next t → MemorySame s t ∧ PagesSame s t ∧ t.rb = s.rb ∧ t.inSlot = s.inSlot) ∧
  (∀ i s0 s1 s t, i = .jumpIfTrue s0 s1 ∨ i = .jumpIfFalse s0 s1 → exec i s = .next t → OnlyPcChanged s t) ∧
  (∀ s0 s t, exec (.adjustRelativeBase s0) s = .next t →
    MemorySame s t ∧ PagesSame s t ∧ t.state = s.state ∧ SlotsSame s t) ∧
  (∀ s t, exec .halt s = .next t →
    MemorySame s t ∧ PagesSame s t ∧ t.pc = s.pc ∧ t.rb = s.rb ∧ SlotsSame s t)

/-- Halt completes in every state: Halted, with pc at the Halt word and everything else as it was (R215; pc is decision
D14). -/
def Obligations.HaltStopsWhereItStands : Prop :=
  ∀ s, ∃ t, exec .halt s = .next t ∧ t.state = .halted ∧ t.pc = s.pc ∧ MemorySame s t ∧ PagesSame s t ∧
    t.rb = s.rb ∧ SlotsSame s t

/-- After Halt: STEP and RUN raise MachineHalted and change nothing; INPUT, OUTPUT, READ, WRITE and STATUS still work and leave
the instance Halted at the same pc and relative base; only NEW or reset leaves Halted (R216; that those five commands work in
Halted and keep pc and the relative base is R235 with decision D32, log 11, and R44, which the spec marks [derived]). -/
def Obligations.HaltedIsTerminal : Prop :=
  ∀ (s : State) (fuel : Nat), s.state = .halted →
    hostCommand fuel .step s = .answered (.error .machineHalted) s ∧
    hostCommand fuel .run s = .answered (.error .machineHalted) s ∧
    (∀ v, s.inSlot = none → ∃ t, hostCommand fuel (.input v) s = .answered (.ok 0) t ∧ t.inSlot = some v) ∧
    (∀ v, s.outSlot = some v → ∃ t, hostCommand fuel .output s = .answered (.ok v) t ∧ t.outSlot = none) ∧
    (∀ a : Cell, 0 ≤ a.toInt → ∃ d, d.toNat = a.toNat ∧
      hostCommand fuel (.read a) s = .answered (.ok (mcRead d s)) s) ∧
    (∀ a v : Cell, 0 ≤ a.toInt → ∃ d t, d.toNat = a.toNat ∧
      hostCommand fuel (.write a v) s = .answered (.ok 0) t ∧ mcRead d t = v) ∧
    (∀ sel, ∃ d, hostCommand fuel (.status sel) s = .answered (.ok d) s) ∧
    (∀ c r t, (∀ image, c ≠ .new image) → hostCommand fuel c s = .answered r t →
      t.state = .halted ∧ t.pc = s.pc ∧ t.rb = s.rb) ∧
    (∀ image r t, image.length ≤ Config.addrMax + 1 → hostCommand fuel (.new image) s = .answered r t →
      t.state = .paused) ∧
    (hostReset s).state = .paused

/-! ### Running (spec 40_execution_cycle.md, section 4) -/

/-- RUN is the step loop of R135, and the data of its OK the code of the state reached (decision D18, log 11). In Halted it raises MachineHalted and changes nothing. Else it sets Running and steps: it
answers OK with the state reached exactly when running steps lead to one that leaves Running, it answers an error exactly
when they lead to a step that fails, in the state before that step, and it never answers exactly when they go on for ever. -/
def Obligations.RunIsTheStepLoop : Prop :=
  ∀ s : State,
    (s.state = .halted → ∀ fuel, hostCommand fuel .run s = .answered (.error .machineHalted) s) ∧
    (s.state ≠ .halted →
      (∀ d t, (∃ fuel, hostCommand fuel .run s = .answered (.ok d) t) ↔
        ∃ n u, RunningSteps n (s.setExec .running) u ∧ step u = .next t ∧ t.state ≠ .running ∧
          d = BitVec.ofNat 64 t.state.code) ∧
      (∀ f t, (∃ fuel, hostCommand fuel .run s = .answered (.error f) t) ↔
        ∃ n, RunningSteps n (s.setExec .running) t ∧ step t = .fault f) ∧
      ((∀ fuel, ∃ t, hostCommand fuel .run s = .noResponse t) ↔
        ∀ n, ∃ u, RunningSteps n (s.setExec .running) u))

/-- An answer of RUN depends neither on the steps allowed it at a time (log 6) nor on what the host issues meanwhile (log 14;
R75, R139, R230, R244, R274, R300; decisions D21, D22). With more steps allowed, the same answer. A RUN that has not answered is
in progress, and going on with it is the same as having allowed more steps at once. While it is in progress every command
is held back and changes nothing; it ends only by its own answer or by reset. Reset, which answers nothing, leaves the reset
state, whatever was in progress. -/
def Obligations.RunAnswersDoNotDependOnFuel : Prop :=
  (∀ s fuel more r t, hostCommand fuel .run s = .answered r t → hostCommand (fuel + more) .run s = .answered r t) ∧
  (∀ s fuel more t, hostCommand fuel .run s = .noResponse t →
    portEvent (.command .run fuel) (.ready s) = (.silence, .running t) ∧
    portEvent (.goOn more) (.running t) = portEvent (.command .run (fuel + more)) (.ready s)) ∧
  (∀ t c fuel, portEvent (.command c fuel) (.running t) = (.heldBack, .running t)) ∧
  (∀ t e r s, portEvent e (.running t) = (r, .ready s) →
    e = .reset ∧ r = .silence ∧ s = State.reset ∨
    ∃ n a, e = .goOn n ∧ r = .response a ∧ runLoop n t = .answered a s) ∧
  (∀ p, portEvent .reset p = (.silence, .ready State.reset))

/-- A RUN that answers OK has reached Blocked or Halted, and says which by its code, 2 or 3 (R136, marked [derived] in
the spec; the codes are decision D18, log 11); one that answers
an error from a state other than Halted leaves Running (R137, decision D13). -/
def Obligations.RunEndsBlockedHaltedOrRunning : Prop :=
  ∀ s fuel t,
    (∀ d, hostCommand fuel .run s = .answered (.ok d) t →
      t.state = .blocked ∧ d = 2 ∨ t.state = .halted ∧ d = 3) ∧
    (∀ f, s.state ≠ .halted → hostCommand fuel .run s = .answered (.error f) t → t.state = .running)

/-- A RUN resumed in Blocked at an Input, with no value supplied, answers Blocked again and changes nothing (R138, R173,
decision D10; that Blocked is answered as 2 is decision D18, log 11). -/
def Obligations.RunWithoutInputBlocksAgain : Prop :=
  ∀ s fuel d0 d, s.state = .blocked → s.inSlot = none → fetchInstr s = .ok (.input d0) → dstAddr d0 s = .ok d →
    hostCommand (fuel + 1) .run s = .answered (.ok 2) s

/-- A jump to itself keeps a RUN from ever responding (R139, decision D21). That the word 1105 is a JumpIfTrue is the opcode
number 5, general knowledge in the spec (G1, decision D8, log 9). -/
def Obligations.SelfJumpNeverResponds : Prop :=
  ∀ s : State, s.state ≠ .halted → s.pc.toNat + 2 ≤ Config.addrMax → mcRead s.pc s = 1105 → literalAt s 0 = 1 →
    literalAt s 1 = cellOfAddr s.pc → ∀ fuel, ∃ t, hostCommand fuel .run s = .noResponse t

/-! ### The host interface (spec 45_host_interface.md, 60_exceptions.md) -/

/-- STEP is one step: its next state with OK, or its error with no change; and an error of any command but RUN leaves the state
as it was (R13, R133, R230, R234; decisions D16, D21). -/
def Obligations.ErrorsChangeNothing : Prop :=
  (∀ s fuel t, step s = .next t → hostCommand fuel .step s = .answered (.ok 0) t) ∧
  (∀ s fuel f, step s = .fault f → hostCommand fuel .step s = .answered (.error f) s) ∧
  (∀ s fuel c f t, c ≠ .run → hostCommand fuel c s = .answered (.error f) t → t = s)

/-- NEW builds a fresh instance from its image: the image from address 0, 0 above it, pc and rb 0, Paused, empty slots,
whatever the state before; the same as NEW of no image and then a WRITE for each cell (R231, R301; decisions D22, D25; that pc and rb are 0 is marked
[derived] in R45, log 10, and the equality with NEW of no image and WRITEs is marked [derived] in R231). -/
def Obligations.NewLoadsTheImageIntoAFreshInstance : Prop :=
  ∀ (image : List Cell) (s : State) (fuel : Nat), image.length ≤ Config.addrMax + 1 →
    ∃ t, hostCommand fuel (.new image) s = .answered (.ok 0) t ∧
      (∀ a : Addr, mcRead a t = image.getD a.toNat 0) ∧
      t.pc.toNat = 0 ∧ t.rb.toNat = 0 ∧ t.state = .paused ∧ t.inSlot = none ∧ t.outSlot = none ∧
      t = (image.zipIdx).foldl (fun u x => mcWrite (addrOfNat x.2) x.1 u) State.reset

/-- INPUT fills an empty slot, and is turned away by a full one, which keeps its value (R236). -/
def Obligations.InputCommandFillsAnEmptySlot : Prop :=
  ∀ (s : State) (fuel : Nat) (v : Cell),
    (∀ w, s.inSlot = some w → hostCommand fuel (.input v) s = .answered (.error .inputAlreadyPopulated) s) ∧
    (s.inSlot = none → ∃ t, hostCommand fuel (.input v) s = .answered (.ok 0) t ∧ t.inSlot = some v ∧
      t.outSlot = s.outSlot ∧ MemorySame s t ∧ PagesSame s t ∧ t.pc = s.pc ∧ t.rb = s.rb ∧ t.state = s.state)

/-- OUTPUT takes the pending value and leaves the slot empty, or raises NoOutput; it does not resume execution, and
only RUN does: a Blocked instance stays Blocked under every command but RUN and NEW (R237; that only
RUN resumes, and STEP does not, is the resolution C1 and decision D11, log 11). -/
def Obligations.OutputCommandTakesTheValue : Prop :=
  ∀ (s : State) (fuel : Nat),
    (s.outSlot = none → hostCommand fuel .output s = .answered (.error .noOutput) s) ∧
    (∀ v, s.outSlot = some v → ∃ t, hostCommand fuel .output s = .answered (.ok v) t ∧ t.outSlot = none ∧
      t.inSlot = s.inSlot ∧ MemorySame s t ∧ PagesSame s t ∧ t.pc = s.pc ∧ t.rb = s.rb ∧ t.state = s.state) ∧
    (s.state = .blocked → ∀ c r t, c ≠ .run → (∀ image, c ≠ .new image) → hostCommand fuel c s = .answered r t →
      t.state = .blocked)

/-- READ gives the cell and changes nothing, WRITE sets it and changes nothing else; a negative address is NegativeAddress, with
no effect (R238, R239; decision D17). -/
def Obligations.ReadAndWritePassThrough : Prop :=
  ∀ (s : State) (fuel : Nat) (a v : Cell),
    (a.toInt < 0 → hostCommand fuel (.read a) s = .answered (.error .negativeAddress) s ∧
      hostCommand fuel (.write a v) s = .answered (.error .negativeAddress) s) ∧
    (∀ d : Addr, (d.toNat : Int) = a.toInt → hostCommand fuel (.read a) s = .answered (.ok (mcRead d s)) s ∧
      ∃ t, hostCommand fuel (.write a v) s = .answered (.ok 0) t ∧ mcRead d t = v ∧ MemorySameBut d s t ∧
        PagesWith d s t ∧ t.pc = s.pc ∧ t.rb = s.rb ∧ t.state = s.state ∧ SlotsSame s t)

/-- STATUS answers OK and changes nothing: sel 0 has the state's code in bits 1:0, `in_full` in bit 2, `out_full` in bit 3 and
0 above, sel 1 is pc, sel 2 rb, any other 0 (R35, R241; decisions D18, D23). -/
def Obligations.StatusReadsTheControlState : Prop :=
  ∀ (s : State) (fuel : Nat) (sel : Cell), ∃ d, hostCommand fuel (.status sel) s = .answered (.ok d) s ∧
    (sel = 0 → d.toNat % 4 = (match s.state with | .paused => 0 | .running => 1 | .blocked => 2 | .halted => 3) ∧
      d.toNat / 4 % 2 = (if s.inSlot = none then 0 else 1) ∧ d.toNat / 8 = (if s.outSlot = none then 0 else 1)) ∧
    (sel = 1 → d.toNat = s.pc.toNat) ∧ (sel = 2 → d.toNat = s.rb.toNat) ∧
    (sel ≠ 0 → sel ≠ 1 → sel ≠ 2 → d = 0)

/-- The status codes of the error kinds are 1 to 10 in the order of R270's table, 0 is OK, and an error carries no data (R242,
R270; decision D18); the requests of the signal-level port stand for the commands of R243 (decision D31). -/
def Obligations.CodesOfErrorsAndRequests : Prop :=
  ([Fault.unknownOpcode, .unknownParameterMode, .memoryAlignment, .machineHalted, .machineBlocked, .inputAlreadyPopulated,
    .noOutput, .negativeAddress, .immediateDestination, .arithmeticOverflow].map Fault.code = [1, 2, 3, 4, 5, 6, 7, 8, 9, 10]) ∧
  (∀ d, (Response.ok d).signals = ⟨0, d⟩) ∧ (∀ f : Fault, (Response.error f).signals = ⟨BitVec.ofNat 4 f.code, 0⟩) ∧
  (∀ a d : Cell, (PortRequest.mk 0 a d).command = .new [] ∧ (PortRequest.mk 1 a d).command = .run ∧
    (PortRequest.mk 2 a d).command = .step ∧ (PortRequest.mk 3 a d).command = .input d ∧
    (PortRequest.mk 4 a d).command = .output ∧ (PortRequest.mk 5 a d).command = .read a ∧
    (PortRequest.mk 6 a d).command = .write a d ∧ (PortRequest.mk 7 a d).command = .status a)

/-- An event at one of several instances, a command among them, is answered as that instance alone answers it, and changes no
other; where the port is ready, a command is answered by `hostCommand` on that instance's state (R7). The list of
instances, and that where there is no instance nothing answers, are the model's (log 13), and so are the port's states and
events (log 14). -/
def Obligations.InstancesAreIndependent : Prop :=
  ∀ (j : Nat) (e : PortEvent) (ps : List PortState),
    (∀ p, ps[j]? = some p → ∃ qs, instancesEvent j e ps = some ((portEvent e p).1, qs) ∧
      qs[j]? = some (portEvent e p).2 ∧ qs.length = ps.length ∧ ∀ k, k ≠ j → qs[k]? = ps[k]?) ∧
    (∀ s c fuel r t, ps[j]? = some (.ready s) → e = .command c fuel → hostCommand fuel c s = .answered r t →
      ∃ qs, instancesEvent j e ps = some (.response r, qs) ∧ qs[j]? = some (.ready t)) ∧
    (ps[j]? = none → instancesEvent j e ps = none)
end

