-- ==== Sys2Proof/Laws/Decode.lean ====
section
/-! SUPPORT. What the decoder reads back from the words and cells the encoder writes. -/

namespace Sys2Proof

/-- The canonical word decodes to the opcode and the modes it was made of (spec R101, R103). -/
theorem decodeWord_encodeWord (k : Opcode) (m0 m1 m2 : Mode) :
    decodeWord (encodeWord k m0 m1 m2) = .ok { op := k, m0 := m0, m1 := m1, m2 := m2 } := by
  cases k <;> cases m0 <;> cases m1 <;> cases m2 <;> rfl

/-- The canonical word decodes to its opcode, whatever the modes. -/
theorem encodeWord_opcode (k : Opcode) (m0 m1 m2 : Mode) :
    (decodeWord (encodeWord k m0 m1 m2)).map WordFields.op = .ok k := by
  rw [decodeWord_encodeWord]
  rfl

/-- "An instruction is 1 to 4 consecutive cells" (spec R90). -/
theorem width_bounds (k : Opcode) : 1 ≤ k.width ∧ k.width ≤ 4 := by
  cases k <;> decide

theorem Opcode.ofNumber_eq_some_iff {n : Nat} {k : Opcode} : Opcode.ofNumber n = some k ↔ n = k.number := by
  constructor
  · intro h
    unfold Opcode.ofNumber at h
    split at h <;> cases h <;> rfl
  · rintro rfl
    cases k <;> rfl

theorem Mode.ofNumber_eq_some_iff {n : Nat} {m : Mode} : Mode.ofNumber n = some m ↔ n = m.number := by
  constructor
  · intro h
    unfold Mode.ofNumber at h
    split at h <;> cases h <;> rfl
  · rintro rfl
    cases m <;> rfl

theorem decodeMode_ok_iff {w : Cell} {i : Nat} {m : Mode} :
    decodeMode w i = .ok m ↔ digit w.toNat (i + 2) = m.number := by
  rw [← Mode.ofNumber_eq_some_iff]
  unfold decodeMode
  split <;> simp_all

end Sys2Proof
end

