-- ==== Sys2Proof/Laws/State.lean ====
section
/-! SUPPORT. One lemma per field per update of State. -/

namespace Sys2Proof.Machine

@[simp] theorem State.setPc_mem (s : State) (p : Addr) : (s.setPc p).mem = s.mem := rfl
@[simp] theorem State.setPc_written (s : State) (p : Addr) : (s.setPc p).written = s.written := rfl
@[simp] theorem State.setPc_pc (s : State) (p : Addr) : (s.setPc p).pc = p := rfl
@[simp] theorem State.setPc_rb (s : State) (p : Addr) : (s.setPc p).rb = s.rb := rfl
@[simp] theorem State.setPc_state (s : State) (p : Addr) : (s.setPc p).state = s.state := rfl
@[simp] theorem State.setPc_inSlot (s : State) (p : Addr) : (s.setPc p).inSlot = s.inSlot := rfl
@[simp] theorem State.setPc_outSlot (s : State) (p : Addr) : (s.setPc p).outSlot = s.outSlot := rfl

@[simp] theorem State.setRb_mem (s : State) (b : Addr) : (s.setRb b).mem = s.mem := rfl
@[simp] theorem State.setRb_written (s : State) (b : Addr) : (s.setRb b).written = s.written := rfl
@[simp] theorem State.setRb_pc (s : State) (b : Addr) : (s.setRb b).pc = s.pc := rfl
@[simp] theorem State.setRb_rb (s : State) (b : Addr) : (s.setRb b).rb = b := rfl
@[simp] theorem State.setRb_state (s : State) (b : Addr) : (s.setRb b).state = s.state := rfl
@[simp] theorem State.setRb_inSlot (s : State) (b : Addr) : (s.setRb b).inSlot = s.inSlot := rfl
@[simp] theorem State.setRb_outSlot (s : State) (b : Addr) : (s.setRb b).outSlot = s.outSlot := rfl

@[simp] theorem State.setExec_mem (s : State) (x : ExecState) : (s.setExec x).mem = s.mem := rfl
@[simp] theorem State.setExec_written (s : State) (x : ExecState) : (s.setExec x).written = s.written := rfl
@[simp] theorem State.setExec_pc (s : State) (x : ExecState) : (s.setExec x).pc = s.pc := rfl
@[simp] theorem State.setExec_rb (s : State) (x : ExecState) : (s.setExec x).rb = s.rb := rfl
@[simp] theorem State.setExec_state (s : State) (x : ExecState) : (s.setExec x).state = x := rfl
@[simp] theorem State.setExec_inSlot (s : State) (x : ExecState) : (s.setExec x).inSlot = s.inSlot := rfl
@[simp] theorem State.setExec_outSlot (s : State) (x : ExecState) : (s.setExec x).outSlot = s.outSlot := rfl

@[simp] theorem State.setIn_mem (s : State) (o : Option Cell) : (s.setIn o).mem = s.mem := rfl
@[simp] theorem State.setIn_written (s : State) (o : Option Cell) : (s.setIn o).written = s.written := rfl
@[simp] theorem State.setIn_pc (s : State) (o : Option Cell) : (s.setIn o).pc = s.pc := rfl
@[simp] theorem State.setIn_rb (s : State) (o : Option Cell) : (s.setIn o).rb = s.rb := rfl
@[simp] theorem State.setIn_state (s : State) (o : Option Cell) : (s.setIn o).state = s.state := rfl
@[simp] theorem State.setIn_inSlot (s : State) (o : Option Cell) : (s.setIn o).inSlot = o := rfl
@[simp] theorem State.setIn_outSlot (s : State) (o : Option Cell) : (s.setIn o).outSlot = s.outSlot := rfl

@[simp] theorem State.setOut_mem (s : State) (o : Option Cell) : (s.setOut o).mem = s.mem := rfl
@[simp] theorem State.setOut_written (s : State) (o : Option Cell) : (s.setOut o).written = s.written := rfl
@[simp] theorem State.setOut_pc (s : State) (o : Option Cell) : (s.setOut o).pc = s.pc := rfl
@[simp] theorem State.setOut_rb (s : State) (o : Option Cell) : (s.setOut o).rb = s.rb := rfl
@[simp] theorem State.setOut_state (s : State) (o : Option Cell) : (s.setOut o).state = s.state := rfl
@[simp] theorem State.setOut_inSlot (s : State) (o : Option Cell) : (s.setOut o).inSlot = s.inSlot := rfl
@[simp] theorem State.setOut_outSlot (s : State) (o : Option Cell) : (s.setOut o).outSlot = o := rfl

@[simp] theorem mcWrite_mem (a : Addr) (v : Cell) (s : State) : (mcWrite a v s).mem = s.mem.writeAt a.toNat v := rfl
@[simp] theorem mcWrite_written (a : Addr) (v : Cell) (s : State) : (mcWrite a v s).written = insertAddr a.toNat s.written := rfl
@[simp] theorem mcWrite_pc (a : Addr) (v : Cell) (s : State) : (mcWrite a v s).pc = s.pc := rfl
@[simp] theorem mcWrite_rb (a : Addr) (v : Cell) (s : State) : (mcWrite a v s).rb = s.rb := rfl
@[simp] theorem mcWrite_state (a : Addr) (v : Cell) (s : State) : (mcWrite a v s).state = s.state := rfl
@[simp] theorem mcWrite_inSlot (a : Addr) (v : Cell) (s : State) : (mcWrite a v s).inSlot = s.inSlot := rfl
@[simp] theorem mcWrite_outSlot (a : Addr) (v : Cell) (s : State) : (mcWrite a v s).outSlot = s.outSlot := rfl

@[simp] theorem mcRead_setPc (a : Addr) (s : State) (p : Addr) : mcRead a (s.setPc p) = mcRead a s := rfl
@[simp] theorem mcRead_setRb (a : Addr) (s : State) (b : Addr) : mcRead a (s.setRb b) = mcRead a s := rfl
@[simp] theorem mcRead_setExec (a : Addr) (s : State) (x : ExecState) : mcRead a (s.setExec x) = mcRead a s := rfl
@[simp] theorem mcRead_setIn (a : Addr) (s : State) (o : Option Cell) : mcRead a (s.setIn o) = mcRead a s := rfl
@[simp] theorem mcRead_setOut (a : Addr) (s : State) (o : Option Cell) : mcRead a (s.setOut o) = mcRead a s := rfl

end Sys2Proof.Machine
end

