-- ==== Sys2Proof/Laws/Memory.lean ====
section
/-! SUPPORT. The laws of memory: what a read gives after a write, and that every operation keeps the canonical form. -/

namespace Sys2Proof.Machine

/-! ### Entries -/

theorem Memory.mem_erase {m : Memory} {a : Nat} {x : Nat × Cell} :
    x ∈ Memory.erase m a ↔ x ∈ m ∧ x.1 ≠ a := by
  induction m with
  | nil => simp [Memory.erase]
  | cons y m ih =>
    obtain ⟨b, w⟩ := y
    by_cases h : b = a
    · simp only [Memory.erase, h, if_true, ih, List.mem_cons]
      exact ⟨fun ⟨hx, hn⟩ => ⟨.inr hx, hn⟩, fun ⟨hx, hn⟩ => ⟨hx.resolve_left (fun e => hn (by rw [e])), hn⟩⟩
    · simp only [Memory.erase, h, if_false, List.mem_cons, ih]
      constructor
      · rintro (rfl | ⟨hx, hn⟩)
        · exact ⟨.inl rfl, h⟩
        · exact ⟨.inr hx, hn⟩
      · rintro ⟨rfl | hx, hn⟩
        · exact .inl rfl
        · exact .inr ⟨hx, hn⟩

theorem Memory.mem_insert {m : Memory} {a : Nat} {v : Cell} {x : Nat × Cell} :
    x ∈ Memory.insert m a v ↔ x = (a, v) ∨ x ∈ m := by
  induction m with
  | nil => simp [Memory.insert]
  | cons y m ih =>
    obtain ⟨b, w⟩ := y
    by_cases h : a < b
    · simp [Memory.insert, h]
    · simp only [Memory.insert, h, if_false, List.mem_cons, ih]
      tauto

theorem Memory.mem_writeAt {m : Memory} {a : Nat} {v : Cell} {x : Nat × Cell} (h : x ∈ Memory.writeAt m a v) :
    x = (a, v) ∧ v ≠ 0 ∨ x ∈ m := by
  unfold Memory.writeAt at h
  split at h
  · exact .inr (Memory.mem_erase.1 h).1
  · rename_i hv
    exact (Memory.mem_insert.1 h).imp (fun e => ⟨e, hv⟩) (fun e => (Memory.mem_erase.1 e).1)

/-! ### Reads -/

theorem Memory.readAt_erase (m : Memory) (a c : Nat) :
    Memory.readAt (Memory.erase m a) c = if c = a then 0 else Memory.readAt m c := by
  induction m with
  | nil => simp [Memory.erase, Memory.readAt]
  | cons y m ih =>
    obtain ⟨b, w⟩ := y
    by_cases hb : b = c
    · subst hb
      by_cases h : b = a
      · simpa [Memory.erase, h] using ih
      · simp [Memory.erase, Memory.readAt, h]
    · by_cases h : b = a
      · subst h
        simp [Memory.erase, Memory.readAt, hb, ih]
      · simp [Memory.erase, Memory.readAt, h, hb, ih]

theorem Memory.readAt_insert (m : Memory) (a : Nat) (v : Cell) (c : Nat) (h : ∀ x ∈ m, x.1 ≠ a) :
    Memory.readAt (Memory.insert m a v) c = if c = a then v else Memory.readAt m c := by
  induction m with
  | nil => simp [Memory.insert, Memory.readAt, eq_comm]
  | cons y m ih =>
    obtain ⟨b, w⟩ := y
    have hb : b ≠ a := h (b, w) (by simp)
    have ih := ih (fun x hx => h x (List.mem_cons_of_mem _ hx))
    unfold Memory.insert
    split
    · by_cases hc : a = c <;> simp [Memory.readAt, hc, eq_comm]
    · by_cases hbc : b = c
      · have : c ≠ a := hbc ▸ hb
        simp [Memory.readAt, hbc, this]
      · simp [Memory.readAt, hbc, ih]

/-- A read after a write gives the value written at the address written, and elsewhere what it gave before: in every
memory, canonical or not. -/
theorem Memory.readAt_writeAt (m : Memory) (a : Nat) (v : Cell) (c : Nat) :
    Memory.readAt (Memory.writeAt m a v) c = if c = a then v else Memory.readAt m c := by
  unfold Memory.writeAt
  split
  · rename_i hv
    rw [Memory.readAt_erase, hv]
  · rw [Memory.readAt_insert _ _ _ _ (fun x hx => (Memory.mem_erase.1 hx).2), Memory.readAt_erase]
    split <;> simp_all

theorem mcRead_mcWrite (a : Addr) (v : Cell) (s : State) (c : Addr) :
    mcRead c (mcWrite a v s) = if c = a then v else mcRead c s := by
  unfold mcRead
  rw [mcWrite_mem, Memory.readAt_writeAt]
  simp [BitVec.toNat_inj]

theorem mcRead_mcWrite_same (a : Addr) (v : Cell) (s : State) : mcRead a (mcWrite a v s) = v := by
  rw [mcRead_mcWrite, if_pos rfl]

theorem mcRead_mcWrite_other {a c : Addr} (h : c ≠ a) (v : Cell) (s : State) :
    mcRead c (mcWrite a v s) = mcRead c s := by
  rw [mcRead_mcWrite, if_neg h]

/-! ### The canonical form -/

theorem addrMax_eq : Config.addrMax = 9223372036854775807 := rfl

theorem Addr.toNat_le (a : Addr) : a.toNat ≤ Config.addrMax := by
  have := a.isLt
  rw [addrMax_eq]
  omega

theorem Addr.toNat_add_one {a : Addr} (h : a.toNat + 1 ≤ Config.addrMax) : (a + 1).toNat = a.toNat + 1 := by
  have h : a.toNat + 1 ≤ 9223372036854775807 := h
  have h1 : (1 : BitVec 63).toNat = 1 := rfl
  rw [BitVec.toNat_add, h1]
  exact Nat.mod_eq_of_lt (by omega)

theorem Memory.wf_erase {m : Memory} (h : m.wf) (a : Nat) : (Memory.erase m a).wf := by
  refine ⟨?_, fun x hx => h.2 x (Memory.mem_erase.1 hx).1⟩
  have hs := h.1
  clear h
  induction m with
  | nil => exact List.Pairwise.nil
  | cons y m ih =>
    obtain ⟨b, w⟩ := y
    rw [List.pairwise_cons] at hs
    unfold Memory.erase
    split
    · exact ih hs.2
    · exact List.Pairwise.cons (fun x hx => hs.1 x (Memory.mem_erase.1 hx).1) (ih hs.2)

theorem Memory.wf_insert {m : Memory} (h : m.wf) {a : Nat} {v : Cell} (ha : a ≤ Config.addrMax) (hv : v ≠ 0)
    (hn : ∀ x ∈ m, x.1 ≠ a) : (Memory.insert m a v).wf := by
  refine ⟨?_, fun x hx => ?_⟩
  · have hs := h.1
    clear h
    induction m with
    | nil => simp [Memory.insert]
    | cons y m ih =>
      obtain ⟨b, w⟩ := y
      have hb : b ≠ a := hn (b, w) (by simp)
      rw [List.pairwise_cons] at hs
      unfold Memory.insert
      split
      · rename_i hlt
        refine List.Pairwise.cons (fun x hx => ?_) (List.Pairwise.cons hs.1 hs.2)
        rcases List.mem_cons.1 hx with rfl | hx
        · exact hlt
        · exact lt_trans hlt (hs.1 x hx)
      · rename_i hlt
        refine List.Pairwise.cons (fun x hx => ?_) (ih (fun x hx => hn x (List.mem_cons_of_mem _ hx)) hs.2)
        rcases Memory.mem_insert.1 hx with rfl | hx
        · exact lt_of_le_of_ne (not_lt.1 hlt) hb
        · exact hs.1 x hx
  · rcases Memory.mem_insert.1 hx with rfl | hx
    · exact ⟨ha, hv⟩
    · exact h.2 x hx

theorem Memory.wf_writeAt {m : Memory} (h : m.wf) {a : Nat} (ha : a ≤ Config.addrMax) (v : Cell) :
    (Memory.writeAt m a v).wf := by
  unfold Memory.writeAt
  split
  · exact Memory.wf_erase h a
  · rename_i hv
    exact Memory.wf_insert (Memory.wf_erase h a) ha hv (fun x hx => (Memory.mem_erase.1 hx).2)

theorem reset_mem_wf : State.reset.mem.wf := by decide

/-! ### The addresses written -/

theorem mem_insertAddr {a b : Nat} {l : List Nat} : b ∈ insertAddr a l ↔ b = a ∨ b ∈ l := by
  induction l with
  | nil => simp [insertAddr]
  | cons c l ih =>
    unfold insertAddr
    split
    · simp
    · split
      · rename_i h
        simp [h]
      · simp only [List.mem_cons, ih]
        tauto

theorem writtenWf_insertAddr {l : List Nat} (h : writtenWf l) {a : Nat} (ha : a ≤ Config.addrMax) :
    writtenWf (insertAddr a l) := by
  refine ⟨?_, fun x hx => ?_⟩
  · have hs := h.1
    clear h
    induction l with
    | nil => simp [insertAddr]
    | cons b l ih =>
      rw [List.pairwise_cons] at hs
      unfold insertAddr
      split
      · rename_i hlt
        refine List.Pairwise.cons (fun x hx => ?_) (List.Pairwise.cons hs.1 hs.2)
        rcases List.mem_cons.1 hx with rfl | hx
        · exact hlt
        · exact lt_trans hlt (hs.1 x hx)
      · split
        · exact List.Pairwise.cons hs.1 hs.2
        · refine List.Pairwise.cons (fun x hx => ?_) (ih hs.2)
          rcases mem_insertAddr.1 hx with rfl | hx
          · omega
          · exact hs.1 x hx
  · rcases mem_insertAddr.1 hx with rfl | hx
    · exact ha
    · exact h.2 x hx

theorem mcWrite_pageAllocated (a : Addr) (v : Cell) (s : State) (p : Nat) :
    (mcWrite a v s).PageAllocated p ↔ (s.PageAllocated p ∨ pageBase a.toNat = p) := by
  unfold State.PageAllocated
  simp only [mcWrite_written, mem_insertAddr]
  constructor
  · rintro ⟨b, rfl | hb, hp⟩
    · exact .inr hp
    · exact .inl ⟨b, hb, hp⟩
  · rintro (⟨b, hb, hp⟩ | hp)
    · exact ⟨b, .inr hb, hp⟩
    · exact ⟨a.toNat, .inl rfl, hp⟩

/-- `MC_WRITE` keeps the invariant. -/
theorem inv_mcWrite {s : State} (h : s.Inv) (a : Addr) (v : Cell) : (mcWrite a v s).Inv := by
  obtain ⟨hm, hw, hmw⟩ := h
  refine ⟨Memory.wf_writeAt hm (Addr.toNat_le a) v, writtenWf_insertAddr hw (Addr.toNat_le a), fun x hx => ?_⟩
  rw [mcWrite_written, mem_insertAddr]
  rcases Memory.mem_writeAt hx with ⟨rfl, -⟩ | hx
  · exact .inl rfl
  · exact .inr (hmw x hx)

/-- The invariant speaks of memory and the addresses written alone. -/
theorem inv_of_same {s t : State} (h : s.Inv) (hm : t.mem = s.mem) (hw : t.written = s.written) : t.Inv := by
  unfold State.Inv
  rw [hm, hw]
  exact h

/-- A cell that does not read 0 is listed. -/
theorem Memory.listed_of_readAt_ne {m : Memory} {a : Nat} (h : Memory.readAt m a ≠ 0) : ∃ x ∈ m, x.1 = a := by
  induction m with
  | nil => exact absurd rfl h
  | cons y m ih =>
    obtain ⟨b, w⟩ := y
    unfold Memory.readAt at h
    split at h
    · exact ⟨(b, w), List.mem_cons_self, ‹_›⟩
    · obtain ⟨x, hx, e⟩ := ih h
      exact ⟨x, List.mem_cons_of_mem _ hx, e⟩

/-- With the invariant, a cell of a page that has not been allocated reads 0 (spec R62). -/
theorem mcRead_of_not_allocated {s : State} (h : s.Inv) {a : Addr} (hp : ¬ s.PageAllocated (pageBase a.toNat)) :
    mcRead a s = 0 := by
  by_contra hn
  obtain ⟨x, hx, e⟩ := Memory.listed_of_readAt_ne hn
  exact hp ⟨x.1, h.2.2 x hx, by rw [e]⟩

theorem inv_mcWriteList (vs : List Cell) : ∀ {a : Addr} {s : State}, s.Inv → (mcWriteList a vs s).Inv := by
  induction vs with
  | nil => exact fun h => h
  | cons v vs ih => exact fun h => ih (inv_mcWrite h _ v)

/-- The registers a bulk write leaves alone. -/
theorem mcWriteList_registers (vs : List Cell) : ∀ (a : Addr) (s : State),
    (mcWriteList a vs s).pc = s.pc ∧ (mcWriteList a vs s).rb = s.rb ∧ (mcWriteList a vs s).state = s.state ∧
      (mcWriteList a vs s).inSlot = s.inSlot ∧ (mcWriteList a vs s).outSlot = s.outSlot := by
  induction vs with
  | nil => exact fun _ _ => ⟨rfl, rfl, rfl, rfl, rfl⟩
  | cons v vs ih => exact fun a s => ih (a + 1) (mcWrite a v s)

/-- What a bulk write within the address space leaves to read: the list's values in order, and elsewhere what was there. -/
theorem mcRead_mcWriteList (vs : List Cell) : ∀ (start : Addr) (s : State) (a : Addr),
    start.toNat + vs.length ≤ Config.addrMax + 1 →
    mcRead a (mcWriteList start vs s) =
      if start.toNat ≤ a.toNat ∧ a.toNat < start.toNat + vs.length then vs.getD (a.toNat - start.toNat) 0
      else mcRead a s := by
  induction vs with
  | nil =>
    intro start s a _
    rw [if_neg (by simp)]
    rfl
  | cons v vs ih =>
    intro start s a h
    have hm := addrMax_eq
    show mcRead a (mcWriteList (start + 1) vs (mcWrite start v s)) = _
    by_cases e : a = start
    · subst e
      rw [if_pos (by simp), Nat.sub_self, List.getD_cons_zero]
      cases vs with
      | nil => exact mcRead_mcWrite_same a v s
      | cons w ws =>
        have hs := Addr.toNat_add_one (a := a) (by simp only [List.length_cons] at h; omega)
        rw [ih _ _ _ (by simp only [List.length_cons] at h ⊢; omega), if_neg (by omega), mcRead_mcWrite_same]
    · have hne : a.toNat ≠ start.toNat := fun h => e (BitVec.toNat_inj.1 h)
      cases vs with
      | nil =>
        rw [if_neg (by simp; omega)]
        exact mcRead_mcWrite_other e v s
      | cons w ws =>
        have hs := Addr.toNat_add_one (a := start) (by simp only [List.length_cons] at h; omega)
        rw [ih _ _ _ (by simp only [List.length_cons] at h ⊢; omega), mcRead_mcWrite_other e, hs]
        by_cases c : start.toNat + 1 ≤ a.toNat ∧ a.toNat < start.toNat + 1 + (w :: ws).length
        · rw [if_pos c, if_pos (by simp only [List.length_cons] at c ⊢; omega)]
          have : a.toNat - start.toNat = a.toNat - (start.toNat + 1) + 1 := by omega
          rw [this, List.getD_cons_succ]
        · rw [if_neg c, if_neg (by simp only [List.length_cons] at c ⊢; omega)]

/-- The pages a bulk write within the address space allocates: those of the cells it writes (spec R63, R67). -/
theorem mcWriteList_pageAllocated (vs : List Cell) : ∀ (start : Addr) (s : State) (p : Nat),
    start.toNat + vs.length ≤ Config.addrMax + 1 →
    ((mcWriteList start vs s).PageAllocated p ↔
      s.PageAllocated p ∨ ∃ j, j < vs.length ∧ pageBase (start.toNat + j) = p) := by
  induction vs with
  | nil => exact fun start s p _ => ⟨.inl, fun h => h.elim id fun ⟨_, hj, _⟩ => absurd hj (Nat.not_lt_zero _)⟩
  | cons v vs ih =>
    intro start s p h
    show (mcWriteList (start + 1) vs (mcWrite start v s)).PageAllocated p ↔ _
    cases vs with
    | nil =>
      rw [show mcWriteList (start + 1) [] (mcWrite start v s) = mcWrite start v s from rfl, mcWrite_pageAllocated]
      simp
    | cons w ws =>
      have hs := Addr.toNat_add_one (a := start) (by simp only [List.length_cons] at h; omega)
      rw [ih _ _ _ (by simp only [List.length_cons] at h ⊢; omega), mcWrite_pageAllocated, hs, or_assoc]
      refine or_congr_right ⟨?_, ?_⟩
      · rintro (h0 | ⟨j, hj, e⟩)
        · exact ⟨0, by simp, h0⟩
        · exact ⟨j + 1, by simp only [List.length_cons] at hj ⊢; omega, by rw [← e]; congr 1; omega⟩
      · rintro ⟨_ | j, hj, e⟩
        · exact .inl e
        · exact .inr ⟨j, by simp only [List.length_cons] at hj ⊢; omega, by rw [← e]; congr 1; omega⟩

/-- What `MC_LOAD` can do: it loads only at an aligned start, and then writes the list. -/
theorem mcLoad_ok {a : Addr} {vs : List Cell} {s t : State} (h : mcLoad a vs s = .ok t) :
    a.toNat % Config.pageLen = 0 ∧ (vs.length = 0 ∨ a.toNat + vs.length - 1 ≤ Config.addrMax) ∧
      t = mcWriteList a vs s := by
  unfold mcLoad at h
  split at h
  · cases h
  · split at h
    · cases h
    · rename_i h1 h2
      cases h
      refine ⟨by omega, by omega, rfl⟩

/-- NEW's load, at 0, never fails: "0 is a multiple of every PAGE_LEN" (spec R68). -/
theorem mcLoad_zero {vs : List Cell} (h : vs.length ≤ Config.addrMax + 1) (s : State) :
    mcLoad 0 vs s = .ok (mcWriteList 0 vs s) := by
  have h0 : (0 : Addr).toNat = 0 := rfl
  unfold mcLoad
  rw [h0, Nat.zero_mod, if_neg (by simp), if_neg (by omega)]

end Sys2Proof.Machine
end

