-- ==== Sys2Proof/Laws/Operands.lean ====
section
/-! SUPPORT. One spec lemma per operation over cells, addresses and operands: exactly when it answers, and with what. -/

namespace Sys2Proof.Machine

/-! ### Except -/

/-- A sequence of checks answers when each of them does. -/
theorem except_bind_ok {ε α β : Type} {x : Except ε α} {f : α → Except ε β} {r : β} :
    (x >>= f) = .ok r ↔ ∃ a, x = .ok a ∧ f a = .ok r := by
  cases x with
  | error e => simp [bind, Except.bind]
  | ok a => simp [bind, Except.bind]

/-- A sequence of checks fails with the first failing check's error. -/
theorem except_bind_error {ε α β : Type} {x : Except ε α} {f : α → Except ε β} {e : ε} :
    (x >>= f) = .error e ↔ x = .error e ∨ ∃ a, x = .ok a ∧ f a = .error e := by
  cases x with
  | error e' => simp [bind, Except.bind]
  | ok a => simp [bind, Except.bind]

/-! ### Cells and addresses as integers -/

theorem fits_iff {v : Int} : fits v = true ↔ Config.cellMin ≤ v ∧ v ≤ Config.cellMax := by
  simp [fits]

theorem toInt_bounds (c : Cell) : Config.cellMin ≤ c.toInt ∧ c.toInt ≤ Config.cellMax := by
  have h1 := BitVec.toInt_lt (x := c)
  have h2 := BitVec.le_toInt (x := c)
  show (-9223372036854775808 : Int) ≤ c.toInt ∧ c.toInt ≤ (9223372036854775807 : Int)
  constructor <;> omega

theorem cellOfInt_toInt {v : Int} (h : fits v = true) : (cellOfInt v).toInt = v := by
  obtain ⟨h1, h2⟩ := fits_iff.1 h
  have h1 : (-9223372036854775808 : Int) ≤ v := h1
  have h2 : v ≤ (9223372036854775807 : Int) := h2
  unfold cellOfInt
  rw [BitVec.toInt_ofInt]
  exact Int.bmod_eq_of_le (by omega) (by omega)

theorem addrOfNat_toNat {n : Nat} (h : n ≤ Config.addrMax) : (addrOfNat n).toNat = n := by
  have h : n ≤ 9223372036854775807 := h
  unfold addrOfNat
  rw [BitVec.toNat_ofNat]
  exact Nat.mod_eq_of_lt (by omega)

/-- Every integer of the cell range is a cell's. -/
theorem cell_exists {v : Int} (h1 : Config.cellMin ≤ v) (h2 : v ≤ Config.cellMax) : ∃ c : Cell, c.toInt = v :=
  ⟨cellOfInt v, cellOfInt_toInt (fits_iff.2 ⟨h1, h2⟩)⟩

/-- Every integer of [0, ADDR_MAX] is an address. -/
theorem addr_exists {v : Int} (h1 : 0 ≤ v) (h2 : v ≤ Config.addrMax) : ∃ a : Addr, (a.toNat : Int) = v :=
  ⟨addrOfNat v.toNat, by rw [addrOfNat_toNat (by omega)]; omega⟩

theorem toInt_of_nonneg {c : Cell} (h : 0 ≤ c.toInt) : c.toInt = (c.toNat : Int) := by
  rw [BitVec.toInt_eq_toNat_cond] at h ⊢
  have := c.isLt
  split at h <;> rename_i hc
  · rw [if_pos hc]
  · omega

/-- The result fits, and the cell holds it; else ArithmeticOverflow (spec R149). -/
theorem narrow_ok_iff {r : Int} {c : Cell} : narrow r = .ok c ↔ c.toInt = r := by
  unfold narrow
  constructor
  · intro h
    split at h
    · cases h
      exact cellOfInt_toInt ‹_›
    · cases h
  · rintro rfl
    have h : fits c.toInt = true := fits_iff.2 (toInt_bounds c)
    rw [if_pos h, BitVec.toInt_inj.1 (cellOfInt_toInt h)]

theorem narrow_error_iff {r : Int} {f : Fault} :
    narrow r = .error f ↔ f = .arithmeticOverflow ∧ (r < Config.cellMin ∨ Config.cellMax < r) := by
  unfold narrow
  split
  · rename_i h
    have := fits_iff.1 h
    simp only [reduceCtorEq, false_iff, not_and, not_or, not_lt]
    exact fun _ => this
  · rename_i h
    rw [fits_iff] at h
    simp only [Except.error.injEq]
    constructor
    · rintro rfl
      exact ⟨rfl, by by_contra hn; push Not at hn; exact h hn⟩
    · exact fun ⟨e, _⟩ => e.symm

/-! ### Address check, sources, destinations, next pc -/

theorem checkAddr_ok_iff {a : Int} {d : Addr} : checkAddr a = .ok d ↔ (d.toNat : Int) = a := by
  unfold checkAddr
  constructor
  · intro h
    split at h
    · cases h
    · split at h
      · cases h
      · cases h
        rename_i h0 h1
        have h1 : ¬ ((9223372036854775807 : Nat) : Int) < a := h1
        rw [addrOfNat_toNat (by rw [addrMax_eq]; omega)]
        omega
  · rintro rfl
    have hd : d.toNat ≤ 9223372036854775807 := Addr.toNat_le d
    have hd' : ¬ ((Config.addrMax : Nat) : Int) < (d.toNat : Int) := by rw [addrMax_eq]; omega
    rw [if_neg (by omega), if_neg hd']
    simp [addrOfNat]

theorem checkAddr_error_iff {a : Int} {f : Fault} : checkAddr a = .error f ↔
    a < 0 ∧ f = .negativeAddress ∨ (Config.addrMax : Int) < a ∧ f = .arithmeticOverflow := by
  have hm : ((Config.addrMax : Nat) : Int) = 9223372036854775807 := rfl
  unfold checkAddr
  rw [hm]
  split
  · rename_i h
    have : ¬ (9223372036854775807 : Int) < a := by omega
    simp only [h, this, true_and, false_and, or_false, Except.error.injEq]
    exact eq_comm
  · rename_i h
    split
    · rename_i h1
      simp only [h, h1, true_and, false_and, false_or, Except.error.injEq]
      exact eq_comm
    · rename_i h1
      simp only [h, h1, false_and, or_false, reduceCtorEq]

theorem nextPc_ok_iff {k : Opcode} {s : State} {p : Addr} :
    nextPc k s = .ok p ↔ p.toNat = s.pc.toNat + k.width := by
  unfold nextPc
  constructor
  · intro h
    split at h
    · cases h
    · cases h
      exact addrOfNat_toNat (by omega)
  · intro h
    have := Addr.toNat_le p
    rw [if_neg (by omega), ← h]
    simp [addrOfNat]

theorem nextPc_error_iff {k : Opcode} {s : State} {f : Fault} :
    nextPc k s = .error f ↔ Config.addrMax < s.pc.toNat + k.width ∧ f = .arithmeticOverflow := by
  unfold nextPc
  split
  · rename_i h
    simp only [h, true_and, Except.error.injEq]
    exact eq_comm
  · rename_i h
    simp only [h, false_and, reduceCtorEq]

theorem srcValue_immediate (raw : Cell) (s : State) : srcValue ⟨.immediate, raw⟩ s = .ok raw := rfl

theorem srcValue_position_ok_iff {raw v : Cell} {s : State} : srcValue ⟨.position, raw⟩ s = .ok v ↔
    ∃ a : Addr, (a.toNat : Int) = raw.toInt ∧ mcRead a s = v := by
  unfold srcValue
  simp only [except_bind_ok, checkAddr_ok_iff, pure, Except.pure, Except.ok.injEq]

theorem srcValue_relative_ok_iff {raw v : Cell} {s : State} : srcValue ⟨.relative, raw⟩ s = .ok v ↔
    ∃ a : Addr, (a.toNat : Int) = relativeAddr raw s ∧ mcRead a s = v := by
  unfold srcValue
  simp only [except_bind_ok, checkAddr_ok_iff, pure, Except.pure, Except.ok.injEq]

theorem dstAddr_ok_iff {o : Operand} {s : State} {d : Addr} : dstAddr o s = .ok d ↔
    o.mode = .position ∧ (d.toNat : Int) = o.raw.toInt ∨
      o.mode = .relative ∧ (d.toNat : Int) = relativeAddr o.raw s := by
  unfold dstAddr
  split <;> simp_all [checkAddr_ok_iff]

theorem srcValue_error_kind {o : Operand} {s : State} {f : Fault} (h : srcValue o s = .error f) :
    f = .negativeAddress ∨ f = .arithmeticOverflow := by
  obtain ⟨m, raw⟩ := o
  cases m with
  | immediate => cases h
  | position =>
    rcases except_bind_error.1 h with h | ⟨_, _, h⟩
    · exact (checkAddr_error_iff.1 h).imp And.right And.right
    · cases h
  | relative =>
    rcases except_bind_error.1 h with h | ⟨_, _, h⟩
    · exact (checkAddr_error_iff.1 h).imp And.right And.right
    · cases h

theorem dstAddr_error_kind {o : Operand} {s : State} {f : Fault} (h : dstAddr o s = .error f) :
    f = .negativeAddress ∨ f = .arithmeticOverflow ∨ f = .immediateDestination := by
  obtain ⟨m, raw⟩ := o
  cases m with
  | immediate => cases h; exact .inr (.inr rfl)
  | position => exact (checkAddr_error_iff.1 h).imp And.right (fun h => .inl h.2)
  | relative => exact (checkAddr_error_iff.1 h).imp And.right (fun h => .inl h.2)

/-! ### The shared instruction shapes -/

/-- What a three-operand instruction does when it answers. -/
theorem binaryOp_ok_iff {k : Opcode} {f : Cell → Cell → Except Fault Cell} {s0 s1 d2 : Operand} {s t : State} :
    binaryOp k f s0 s1 d2 s = .ok t ↔
      ∃ a b d r p, srcValue s0 s = .ok a ∧ srcValue s1 s = .ok b ∧ dstAddr d2 s = .ok d ∧ f a b = .ok r ∧
        nextPc k s = .ok p ∧ (mcWrite d r s).setPc p = t := by
  unfold binaryOp
  simp only [except_bind_ok, pure, Except.pure, Except.ok.injEq]
  constructor
  · rintro ⟨a, ha, b, hb, d, hd, r, hr, p, hp, ht⟩
    exact ⟨a, b, d, r, p, ha, hb, hd, hr, hp, ht⟩
  · rintro ⟨a, b, d, r, p, ha, hb, hd, hr, hp, ht⟩
    exact ⟨a, ha, b, hb, d, hd, r, hr, p, hp, ht⟩

/-- What a conditional jump does when it answers. -/
theorem condJump_ok_iff {k : Opcode} {taken : Cell → Bool} {s0 s1 : Operand} {s t : State} :
    condJump k taken s0 s1 s = .ok t ↔
      ∃ c v p, srcValue s0 s = .ok c ∧ srcValue s1 s = .ok v ∧
        (if taken c then checkAddr v.toInt else nextPc k s) = .ok p ∧ s.setPc p = t := by
  unfold condJump
  simp only [except_bind_ok]
  constructor
  · rintro ⟨c, hc, v, hv, h⟩
    split at h <;> rename_i htk <;> obtain ⟨p, hp, ht⟩ := except_bind_ok.1 h <;> cases ht
    · exact ⟨c, v, p, hc, hv, by rw [if_pos htk]; exact hp, rfl⟩
    · exact ⟨c, v, p, hc, hv, by rw [if_neg htk]; exact hp, rfl⟩
  · rintro ⟨c, v, p, hc, hv, hp, rfl⟩
    refine ⟨c, hc, v, hv, ?_⟩
    split at hp <;> rename_i htk
    · rw [if_pos htk]
      exact except_bind_ok.2 ⟨p, hp, rfl⟩
    · rw [if_neg htk]
      exact except_bind_ok.2 ⟨p, hp, rfl⟩

/-- What Input does, its destination known, when it answers: it blocks, or it takes the value. -/
theorem takeInput_ok_iff {d : Addr} {s t : State} : takeInput d s = .ok t ↔
    s.inSlot = none ∧ s.setExec .blocked = t ∨
      ∃ v p, s.inSlot = some v ∧ nextPc .input s = .ok p ∧ ((mcWrite d v s).setIn none).setPc p = t := by
  unfold takeInput
  split
  · rename_i h
    simp [h]
  · rename_i v h
    simp [h, except_bind_ok, pure, Except.pure]

/-- The errors a three-operand instruction can raise: its operands', its result's, or the advance's. -/
theorem binaryOp_error {k : Opcode} {g : Cell → Cell → Except Fault Cell} {s0 s1 d2 : Operand} {s : State} {f : Fault}
    (h : binaryOp k g s0 s1 d2 s = .error f) :
    srcValue s0 s = .error f ∨ srcValue s1 s = .error f ∨ dstAddr d2 s = .error f ∨ (∃ a b, g a b = .error f) ∨
      nextPc k s = .error f := by
  unfold binaryOp at h
  simp only [except_bind_error] at h
  rcases h with h | ⟨a, _, h | ⟨b, _, h | ⟨d, _, h | ⟨r, _, h | ⟨p, _, h⟩⟩⟩⟩⟩
  · exact .inl h
  · exact .inr (.inl h)
  · exact .inr (.inr (.inl h))
  · exact .inr (.inr (.inr (.inl ⟨a, b, h⟩)))
  · exact .inr (.inr (.inr (.inr h)))
  · cases h

/-- The errors a conditional jump can raise: its operands', its target's, or the advance's. -/
theorem condJump_error {k : Opcode} {taken : Cell → Bool} {s0 s1 : Operand} {s : State} {f : Fault}
    (h : condJump k taken s0 s1 s = .error f) :
    srcValue s0 s = .error f ∨ srcValue s1 s = .error f ∨ (∃ v : Cell, checkAddr v.toInt = .error f) ∨
      nextPc k s = .error f := by
  unfold condJump at h
  simp only [except_bind_error] at h
  rcases h with h | ⟨c, _, h | ⟨v, _, h⟩⟩
  · exact .inl h
  · exact .inr (.inl h)
  · split at h <;> rcases except_bind_error.1 h with h | ⟨_, _, h⟩
    · exact .inr (.inr (.inl ⟨v, h⟩))
    · cases h
    · exact .inr (.inr (.inr h))
    · cases h

end Sys2Proof.Machine
end

