-- ==== Sys2Proof/Laws/Exec.lean ====
section
/-! SUPPORT. One inversion lemma per instruction: everything its meaning can do when it answers a next state. -/

namespace Sys2Proof.Machine

/-- A step's commit: it answers a next state when its checks have led to one. -/
theorem finish_next_iff {x : Except Fault State} {t : State} : finish x = .next t ↔ x = .ok t := by
  cases x <;> simp [finish]

/-- A step's error: it is the first failing check's. -/
theorem finish_fault_iff {x : Except Fault State} {f : Fault} : finish x = .fault f ↔ x = .error f := by
  cases x <;> simp [finish]

/-- No step is refused. -/
theorem finish_not_refused (x : Except Fault State) (r : Refusal) : finish x ≠ .refused r := by
  cases x <;> simp [finish]

theorem exec_add_next_iff {s0 s1 d2 : Operand} {s t : State} : exec (.add s0 s1 d2) s = .next t ↔
    ∃ a b d r p, srcValue s0 s = .ok a ∧ srcValue s1 s = .ok b ∧ dstAddr d2 s = .ok d ∧
      r.toInt = a.toInt + b.toInt ∧ nextPc .add s = .ok p ∧ (mcWrite d r s).setPc p = t := by
  show finish _ = _ ↔ _
  rw [finish_next_iff, binaryOp_ok_iff]
  simp only [addCells, narrow_ok_iff]

theorem exec_multiply_next_iff {s0 s1 d2 : Operand} {s t : State} : exec (.multiply s0 s1 d2) s = .next t ↔
    ∃ a b d r p, srcValue s0 s = .ok a ∧ srcValue s1 s = .ok b ∧ dstAddr d2 s = .ok d ∧
      r.toInt = a.toInt * b.toInt ∧ nextPc .multiply s = .ok p ∧ (mcWrite d r s).setPc p = t := by
  show finish _ = _ ↔ _
  rw [finish_next_iff, binaryOp_ok_iff]
  simp only [mulCells, narrow_ok_iff]

theorem exec_lessThan_next_iff {s0 s1 d2 : Operand} {s t : State} : exec (.lessThan s0 s1 d2) s = .next t ↔
    ∃ a b d r p, srcValue s0 s = .ok a ∧ srcValue s1 s = .ok b ∧ dstAddr d2 s = .ok d ∧
      truthCell (decide (a.toInt < b.toInt)) = r ∧ nextPc .lessThan s = .ok p ∧ (mcWrite d r s).setPc p = t := by
  show finish _ = _ ↔ _
  rw [finish_next_iff, binaryOp_ok_iff]
  simp only [ltCells, Except.ok.injEq]

theorem exec_equals_next_iff {s0 s1 d2 : Operand} {s t : State} : exec (.equals s0 s1 d2) s = .next t ↔
    ∃ a b d r p, srcValue s0 s = .ok a ∧ srcValue s1 s = .ok b ∧ dstAddr d2 s = .ok d ∧
      truthCell (decide (a.toInt = b.toInt)) = r ∧ nextPc .equals s = .ok p ∧ (mcWrite d r s).setPc p = t := by
  show finish _ = _ ↔ _
  rw [finish_next_iff, binaryOp_ok_iff]
  simp only [eqCells, Except.ok.injEq]

theorem exec_input_next_iff {d0 : Operand} {s t : State} : exec (.input d0) s = .next t ↔
    ∃ d, dstAddr d0 s = .ok d ∧ (s.inSlot = none ∧ s.setExec .blocked = t ∨
      ∃ v p, s.inSlot = some v ∧ nextPc .input s = .ok p ∧ ((mcWrite d v s).setIn none).setPc p = t) := by
  show finish _ = _ ↔ _
  rw [finish_next_iff, except_bind_ok]
  simp only [takeInput_ok_iff]

theorem exec_output_next_iff {s0 : Operand} {s t : State} : exec (.output s0) s = .next t ↔
    ∃ v p, srcValue s0 s = .ok v ∧ nextPc .output s = .ok p ∧
      ((s.setOut (some v)).setExec .blocked).setPc p = t := by
  show finish _ = _ ↔ _
  rw [finish_next_iff, except_bind_ok]
  simp only [except_bind_ok, pure, Except.pure, Except.ok.injEq]
  constructor
  · rintro ⟨v, hv, p, hp, ht⟩
    exact ⟨v, p, hv, hp, ht⟩
  · rintro ⟨v, p, hv, hp, ht⟩
    exact ⟨v, hv, p, hp, ht⟩

theorem exec_jumpIfTrue_next_iff {s0 s1 : Operand} {s t : State} : exec (.jumpIfTrue s0 s1) s = .next t ↔
    ∃ c v p, srcValue s0 s = .ok c ∧ srcValue s1 s = .ok v ∧
      (if conditionTrue c then checkAddr v.toInt else nextPc .jumpIfTrue s) = .ok p ∧ s.setPc p = t := by
  show finish _ = _ ↔ _
  rw [finish_next_iff, condJump_ok_iff]

theorem exec_jumpIfFalse_next_iff {s0 s1 : Operand} {s t : State} : exec (.jumpIfFalse s0 s1) s = .next t ↔
    ∃ c v p, srcValue s0 s = .ok c ∧ srcValue s1 s = .ok v ∧
      (if conditionFalse c then checkAddr v.toInt else nextPc .jumpIfFalse s) = .ok p ∧ s.setPc p = t := by
  show finish _ = _ ↔ _
  rw [finish_next_iff, condJump_ok_iff]

theorem exec_adjustRelativeBase_next_iff {s0 : Operand} {s t : State} :
    exec (.adjustRelativeBase s0) s = .next t ↔
      ∃ v b p, srcValue s0 s = .ok v ∧ (b.toNat : Int) = relativeAddr v s ∧ nextPc .adjustRelativeBase s = .ok p ∧
        (s.setRb b).setPc p = t := by
  show finish _ = _ ↔ _
  rw [finish_next_iff, except_bind_ok]
  simp only [except_bind_ok, checkAddr_ok_iff, pure, Except.pure, Except.ok.injEq]
  constructor
  · rintro ⟨v, hv, b, hb, p, hp, ht⟩
    exact ⟨v, b, p, hv, hb, hp, ht⟩
  · rintro ⟨v, b, p, hv, hb, hp, ht⟩
    exact ⟨v, hv, b, hb, p, hp, ht⟩

theorem exec_halt_next_iff {s t : State} : exec .halt s = .next t ↔ s.setExec .halted = t := by
  show finish (.ok (s.setExec .halted)) = _ ↔ _
  rw [finish_next_iff, Except.ok.injEq]

/-- Every instruction has a meaning: `exec` refuses none. -/
theorem exec_not_refused (i : Instr) (s : State) (r : Refusal) : exec i s ≠ .refused r := by
  cases i with
  | halt => exact finish_not_refused (.ok (s.setExec .halted)) r
  | _ => exact finish_not_refused _ r

/-- The three error kinds an instruction itself can raise (spec R270); the others are the step's, the memory controller's
and the host commands'. -/
def execFaultKind (f : Fault) : Prop := f = .negativeAddress ∨ f = .arithmeticOverflow ∨ f = .immediateDestination

theorem execFaultKind_source {o : Operand} {s : State} {f : Fault} (h : srcValue o s = .error f) : execFaultKind f :=
  (srcValue_error_kind h).imp_right .inl

theorem execFaultKind_checkAddr {a : Int} {f : Fault} (h : checkAddr a = .error f) : execFaultKind f :=
  (checkAddr_error_iff.1 h).imp And.right (fun h => .inl h.2)

theorem execFaultKind_nextPc {k : Opcode} {s : State} {f : Fault} (h : nextPc k s = .error f) : execFaultKind f :=
  .inr (.inl (nextPc_error_iff.1 h).2)

theorem execFaultKind_binaryOp {k : Opcode} {g : Cell → Cell → Except Fault Cell} {s0 s1 d2 : Operand} {s : State}
    {f : Fault} (hg : ∀ a b f, g a b = .error f → execFaultKind f) (h : binaryOp k g s0 s1 d2 s = .error f) :
    execFaultKind f := by
  rcases binaryOp_error h with h | h | h | ⟨a, b, h⟩ | h
  · exact execFaultKind_source h
  · exact execFaultKind_source h
  · exact dstAddr_error_kind h
  · exact hg a b f h
  · exact execFaultKind_nextPc h

theorem execFaultKind_condJump {k : Opcode} {taken : Cell → Bool} {s0 s1 : Operand} {s : State} {f : Fault}
    (h : condJump k taken s0 s1 s = .error f) : execFaultKind f := by
  rcases condJump_error h with h | h | ⟨v, h⟩ | h
  · exact execFaultKind_source h
  · exact execFaultKind_source h
  · exact execFaultKind_checkAddr h
  · exact execFaultKind_nextPc h

theorem execFaultKind_narrow {r : Int} {f : Fault} (h : narrow r = .error f) : execFaultKind f :=
  .inr (.inl (narrow_error_iff.1 h).1)

/-- Every error of `exec` is of one of the three kinds. -/
theorem exec_fault_kind {i : Instr} {s : State} {f : Fault} (h : exec i s = .fault f) : execFaultKind f := by
  cases i with
  | add => exact execFaultKind_binaryOp (fun _ _ _ h => execFaultKind_narrow h) (finish_fault_iff.1 h)
  | multiply => exact execFaultKind_binaryOp (fun _ _ _ h => execFaultKind_narrow h) (finish_fault_iff.1 h)
  | lessThan => exact execFaultKind_binaryOp (fun _ _ _ h => by cases h) (finish_fault_iff.1 h)
  | equals => exact execFaultKind_binaryOp (fun _ _ _ h => by cases h) (finish_fault_iff.1 h)
  | jumpIfTrue => exact execFaultKind_condJump (finish_fault_iff.1 h)
  | jumpIfFalse => exact execFaultKind_condJump (finish_fault_iff.1 h)
  | halt => cases h
  | input d0 =>
    rcases except_bind_error.1 (finish_fault_iff.1 h) with h | ⟨d, _, h⟩
    · exact dstAddr_error_kind h
    · unfold takeInput at h
      split at h
      · cases h
      · rcases except_bind_error.1 h with h | ⟨_, _, h⟩
        · exact execFaultKind_nextPc h
        · cases h
  | output s0 =>
    rcases except_bind_error.1 (finish_fault_iff.1 h) with h | ⟨v, _, h⟩
    · exact execFaultKind_source h
    · rcases except_bind_error.1 h with h | ⟨_, _, h⟩
      · exact execFaultKind_nextPc h
      · cases h
  | adjustRelativeBase s0 =>
    rcases except_bind_error.1 (finish_fault_iff.1 h) with h | ⟨v, _, h⟩
    · exact execFaultKind_source h
    · rcases except_bind_error.1 h with h | ⟨_, _, h⟩
      · exact execFaultKind_checkAddr h
      · rcases except_bind_error.1 h with h | ⟨_, _, h⟩
        · exact execFaultKind_nextPc h
        · cases h

/-- What any instruction can do to a state: registers and slots only, or one store and registers and slots. -/
theorem exec_next_cases {i : Instr} {s t : State} (h : exec i s = .next t) :
    (t.mem = s.mem ∧ t.written = s.written) ∨
      ∃ d v, t.mem = (mcWrite d v s).mem ∧ t.written = (mcWrite d v s).written := by
  cases i with
  | add =>
    obtain ⟨_, _, d, r, _, _, _, _, _, _, rfl⟩ := exec_add_next_iff.1 h
    exact .inr ⟨d, r, rfl, rfl⟩
  | multiply =>
    obtain ⟨_, _, d, r, _, _, _, _, _, _, rfl⟩ := exec_multiply_next_iff.1 h
    exact .inr ⟨d, r, rfl, rfl⟩
  | lessThan =>
    obtain ⟨_, _, d, r, _, _, _, _, _, _, rfl⟩ := exec_lessThan_next_iff.1 h
    exact .inr ⟨d, r, rfl, rfl⟩
  | equals =>
    obtain ⟨_, _, d, r, _, _, _, _, _, _, rfl⟩ := exec_equals_next_iff.1 h
    exact .inr ⟨d, r, rfl, rfl⟩
  | input =>
    obtain ⟨d, _, ⟨_, rfl⟩ | ⟨v, _, _, _, rfl⟩⟩ := exec_input_next_iff.1 h
    · exact .inl ⟨rfl, rfl⟩
    · exact .inr ⟨d, v, rfl, rfl⟩
  | output =>
    obtain ⟨_, _, _, _, rfl⟩ := exec_output_next_iff.1 h
    exact .inl ⟨rfl, rfl⟩
  | jumpIfTrue =>
    obtain ⟨_, _, _, _, _, _, rfl⟩ := exec_jumpIfTrue_next_iff.1 h
    exact .inl ⟨rfl, rfl⟩
  | jumpIfFalse =>
    obtain ⟨_, _, _, _, _, _, rfl⟩ := exec_jumpIfFalse_next_iff.1 h
    exact .inl ⟨rfl, rfl⟩
  | adjustRelativeBase =>
    obtain ⟨_, _, _, _, _, _, rfl⟩ := exec_adjustRelativeBase_next_iff.1 h
    exact .inl ⟨rfl, rfl⟩
  | halt =>
    obtain rfl := exec_halt_next_iff.1 h
    exact .inl ⟨rfl, rfl⟩

end Sys2Proof.Machine
end

