-- ==== Sys2Proof/Laws/Step.lean ====
section
/-! SUPPORT. What the step can do, in terms of its phases. -/

namespace Sys2Proof.Machine

theorem checkRunnable_ok_iff {s : State} : checkRunnable s = .ok () ↔ s.Runnable := by
  unfold checkRunnable State.Runnable
  split <;> simp_all

/-- When the fetch answers: the word decodes and the literals lie in the address space (spec R122, R124). -/
theorem fetchInstr_ok_iff {s : State} {i : Instr} : fetchInstr s = .ok i ↔
    ∃ f, decodeWord (mcRead s.pc s) = .ok f ∧ s.pc.toNat + f.op.operandCount ≤ Config.addrMax ∧
      f.assemble (literalAt s) = i := by
  unfold fetchInstr
  split
  · rename_i e h
    simp [h]
  · rename_i f h
    split <;> simp_all

/-- A step that answers a next state is the fetched instruction's. -/
theorem step_next_iff {s t : State} : step s = .next t ↔
    s.Runnable ∧ ∃ i, fetchInstr s = .ok i ∧ exec i s = .next t := by
  unfold step
  split
  · rename_i f h
    have : ¬ s.Runnable := fun hr => by rw [checkRunnable_ok_iff.2 hr] at h; cases h
    simp [this]
  · rename_i h
    rw [checkRunnable_ok_iff.1 h |> eq_true]
    split
    · rename_i f hf
      simp [hf]
    · rename_i i hi
      simp [hi]

/-- A step whose state lets it proceed and whose fetch answers is the instruction's. -/
theorem step_of_fetch {s : State} {i : Instr} (hr : s.Runnable) (hi : fetchInstr s = .ok i) : step s = exec i s := by
  unfold step
  rw [checkRunnable_ok_iff.2 hr, hi]

/-- A step whose state lets it proceed: the fetch's error, or the instruction's outcome. -/
theorem step_of_runnable {s : State} (hr : s.Runnable) :
    step s = match fetchInstr s with
      | .error f => .fault f
      | .ok i => exec i s := by
  cases h : fetchInstr s <;> simp [step, checkRunnable_ok_iff.2 hr, h]

/-- No step is refused. -/
theorem step_not_refused (s : State) (r : Refusal) : step s ≠ .refused r := by
  unfold step
  split
  · simp
  · split
    · simp
    · exact exec_not_refused _ s r

end Sys2Proof.Machine
end

