-- ==== Sys2Proof/Laws/HostPort.lean ====
section
/-! SUPPORT. What the host commands can do. -/

namespace Sys2Proof.Machine

/-- A RUN's loop that answers does so after some running steps: with the state a step reached outside Running, or with
the error of a step that failed. -/
theorem runLoop_answered {fuel : Nat} {s t : State} {r : Response} (h : runLoop fuel s = .answered r t) :
    ∃ n u, RunningSteps n s u ∧
      (step u = .next t ∧ t.state ≠ .running ∧ r = .ok (BitVec.ofNat 64 t.state.code) ∨
        ∃ f, step u = .fault f ∧ r = .error f ∧ t = u) := by
  induction fuel generalizing s with
  | zero => cases h
  | succ fuel ih =>
    unfold runLoop at h
    split at h
    · rename_i f hf
      cases h
      exact ⟨0, _, .refl _, .inr ⟨f, hf, rfl, rfl⟩⟩
    · cases h
    · rename_i u hu
      split at h
      · rename_i hr
        obtain ⟨n, w, hw, hc⟩ := ih h
        exact ⟨n + 1, w, .cons hu hr hw, hc⟩
      · rename_i hr
        cases h
        exact ⟨0, _, .refl _, .inl ⟨hu, hr, rfl⟩⟩

/-- A RUN's loop that has not responded has made as many running steps as it was allowed. -/
theorem runLoop_noResponse {fuel : Nat} {s t : State} (h : runLoop fuel s = .noResponse t) : RunningSteps fuel s t := by
  induction fuel generalizing s with
  | zero => cases h; exact .refl _
  | succ fuel ih =>
    unfold runLoop at h
    split at h
    · cases h
    · cases h
    · rename_i u hu
      split at h
      · exact .cons hu ‹_› (ih h)
      · cases h

/-- Running steps to a step that leaves Running make the loop answer with the state reached. -/
theorem runLoop_of_next {n : Nat} {s u t : State} (h : RunningSteps n s u) (ht : step u = .next t)
    (hr : t.state ≠ .running) : runLoop (n + 1) s = .answered (.ok (BitVec.ofNat 64 t.state.code)) t := by
  induction h with
  | refl s => simp [runLoop, ht, hr]
  | cons h1 h2 _ ih =>
    unfold runLoop
    rw [h1]
    simp only [h2, if_true]
    exact ih ht

/-- Running steps to a step that fails make the loop answer with its error. -/
theorem runLoop_of_fault {n : Nat} {s u : State} {f : Fault} (h : RunningSteps n s u) (ht : step u = .fault f) :
    runLoop (n + 1) s = .answered (.error f) u := by
  induction h with
  | refl s => simp [runLoop, ht, respondError]
  | cons h1 h2 _ ih =>
    unfold runLoop
    rw [h1]
    simp only [h2, if_true]
    exact ih ht

/-- With no more steps allowed than the running steps there are, the loop has not responded. -/
theorem runLoop_of_steps {n : Nat} {s u : State} (h : RunningSteps n s u) : runLoop n s = .noResponse u := by
  induction h with
  | refl s => rfl
  | cons h1 h2 _ ih =>
    unfold runLoop
    rw [h1]
    simp only [h2, if_true]
    exact ih

/-- An invariant that every step keeps holds after running steps. -/
theorem RunningSteps.induct {P : State → Prop} (hstep : ∀ s t, P s → step s = .next t → P t) {n : Nat} {s t : State}
    (h : RunningSteps n s t) (hs : P s) : P t := by
  induction h with
  | refl => exact hs
  | cons h _ _ ih => exact ih (hstep _ _ hs h)

/-- A property that `step` and the direct commands keep is kept by every command. -/
theorem hostCommand_induct {P : State → Prop} (hstep : ∀ s t, P s → step s = .next t → P t)
    (hnew : ∀ image, P (mcWriteList 0 image State.reset)) (hexec : ∀ s, P s → P (s.setExec .running))
    (hin : ∀ s v, P s → P (s.setIn (some v))) (hout : ∀ s, P s → P (s.setOut none))
    (hwrite : ∀ s a v, P s → P (mcWrite a v s)) {fuel : Nat} {c : Command} {r : Response} {s t : State} (hs : P s)
    (h : hostCommand fuel c s = .answered r t) : P t := by
  cases c with
  | new image =>
    simp only [hostCommand, hostNew] at h
    split at h
    · cases h
    · split at h
      · rename_i u hu
        cases h
        rw [(mcLoad_ok hu).2.2]
        exact hnew image
      · cases h
        exact hs
  | run =>
    simp only [hostCommand, hostRun] at h
    split at h
    · cases h
      exact hs
    · obtain ⟨n, u, hu, ⟨ht, _, _⟩ | ⟨_, _, _, rfl⟩⟩ := runLoop_answered h
      · exact hstep u t (hu.induct hstep (hexec s hs)) ht
      · exact hu.induct hstep (hexec s hs)
  | step =>
    simp only [hostCommand, hostStep] at h
    split at h
    · cases h
      exact hstep _ _ hs ‹_›
    · cases h
      exact hs
    · cases h
  | input v =>
    simp only [hostCommand, hostInput] at h
    split at h <;> cases h
    · exact hs
    · exact hin s v hs
  | output =>
    simp only [hostCommand, hostOutput] at h
    split at h <;> cases h
    · exact hs
    · exact hout s hs
  | read a =>
    simp only [hostCommand, hostRead] at h
    split at h <;> cases h <;> exact hs
  | write a v =>
    simp only [hostCommand, hostWrite] at h
    split at h <;> cases h
    · exact hs
    · exact hwrite s _ v hs
  | status sel =>
    simp only [hostCommand, hostStatus] at h
    cases h
    exact hs

end Sys2Proof.Machine
end

