-- ==== Sys2Proof/Laws/PerInstr.lean ====
section
/-! SUPPORT. The family Formats of statements about each instruction as syntax (spec R97, R101). -/

namespace Sys2Proof.Laws.Formats

/-- An instruction's cells are its width, 1 to 4, and its canonical word decodes to its opcode (spec R97, R101). -/
def Statement (i : Instr) : Prop :=
  (encode i).length = i.opcode.width ∧ 1 ≤ i.opcode.width ∧ i.opcode.width ≤ 4 ∧
    (decodeWord i.word).map WordFields.op = .ok i.opcode

theorem add (s0 s1 d2 : Operand) : Statement (.add s0 s1 d2) :=
  ⟨rfl, (width_bounds _).1, (width_bounds _).2, encodeWord_opcode _ _ _ _⟩

theorem multiply (s0 s1 d2 : Operand) : Statement (.multiply s0 s1 d2) :=
  ⟨rfl, (width_bounds _).1, (width_bounds _).2, encodeWord_opcode _ _ _ _⟩

theorem input (d0 : Operand) : Statement (.input d0) :=
  ⟨rfl, (width_bounds _).1, (width_bounds _).2, encodeWord_opcode _ _ _ _⟩

theorem output (s0 : Operand) : Statement (.output s0) :=
  ⟨rfl, (width_bounds _).1, (width_bounds _).2, encodeWord_opcode _ _ _ _⟩

theorem jumpIfTrue (s0 s1 : Operand) : Statement (.jumpIfTrue s0 s1) :=
  ⟨rfl, (width_bounds _).1, (width_bounds _).2, encodeWord_opcode _ _ _ _⟩

theorem jumpIfFalse (s0 s1 : Operand) : Statement (.jumpIfFalse s0 s1) :=
  ⟨rfl, (width_bounds _).1, (width_bounds _).2, encodeWord_opcode _ _ _ _⟩

theorem lessThan (s0 s1 d2 : Operand) : Statement (.lessThan s0 s1 d2) :=
  ⟨rfl, (width_bounds _).1, (width_bounds _).2, encodeWord_opcode _ _ _ _⟩

theorem equals (s0 s1 d2 : Operand) : Statement (.equals s0 s1 d2) :=
  ⟨rfl, (width_bounds _).1, (width_bounds _).2, encodeWord_opcode _ _ _ _⟩

theorem adjustRelativeBase (s0 : Operand) : Statement (.adjustRelativeBase s0) :=
  ⟨rfl, (width_bounds _).1, (width_bounds _).2, encodeWord_opcode _ _ _ _⟩

theorem halt : Statement .halt :=
  ⟨rfl, (width_bounds _).1, (width_bounds _).2, encodeWord_opcode _ _ _ _⟩

end Sys2Proof.Laws.Formats
end

