-- ==== Sys2Proof/Laws/Port.lean ====
section
/-! SUPPORT. What an event at the port can do, and how a RUN in progress goes on. -/

namespace Sys2Proof.Machine

/-- The loop is never refused: no step is. -/
theorem runLoop_not_refused (fuel : Nat) (s : State) (r : Refusal) : runLoop fuel s ≠ .refused r := by
  induction fuel generalizing s with
  | zero => exact fun h => by cases h
  | succ fuel ih =>
    unfold runLoop
    split
    · exact fun h => by cases h
    · exact fun _ => step_not_refused s _ ‹_›
    · split
      · exact ih _
      · exact fun h => by cases h

/-- A loop that has not responded goes on where it stands: the same as having allowed the further steps at once. -/
theorem runLoop_add {fuel : Nat} {s t : State} (more : Nat) (h : runLoop fuel s = .noResponse t) :
    runLoop (fuel + more) s = runLoop more t := by
  have hs := runLoop_noResponse h
  clear h
  induction hs with
  | refl => rw [Nat.zero_add]
  | cons h hr _ ih =>
    rw [Nat.add_right_comm]
    conv_lhs => unfold runLoop
    rw [h]
    simp only [hr, if_true]
    exact ih

/-- A RUN in progress is in Running. -/
theorem RunningSteps.state_running {n : Nat} {s t : State} (h : RunningSteps n s t) (hs : s.state = .running) :
    t.state = .running := by
  induction h with
  | refl => exact hs
  | cons _ hr _ ih => exact ih hr

@[simp] theorem PortState.machine_ready (s : State) : (PortState.ready s).machine = s := rfl
@[simp] theorem PortState.machine_running (s : State) : (PortState.running s).machine = s := rfl
@[simp] theorem PortState.settle_answered (p : PortState) (r : Response) (t : State) :
    p.settle (.answered r t) = (.response r, .ready t) := rfl
@[simp] theorem PortState.settle_noResponse (p : PortState) (t : State) :
    p.settle (.noResponse t) = (.silence, .running t) := rfl
@[simp] theorem PortState.settle_refused (p : PortState) (r : Refusal) : p.settle (.refused r) = (.refused r, p) := rfl

/-- What an event can leave at the port: a command's answer, a RUN in progress, the reset state, or nothing changed. -/
theorem portEvent_cases (e : PortEvent) (p : PortState) :
    (∃ c fuel r s t, e = .command c fuel ∧ p = .ready s ∧ hostCommand fuel c s = .answered r t ∧
        portEvent e p = (.response r, .ready t)) ∨
    (∃ c fuel s t, e = .command c fuel ∧ p = .ready s ∧ hostCommand fuel c s = .noResponse t ∧
        portEvent e p = (.silence, .running t)) ∨
    (∃ fuel r s t, e = .goOn fuel ∧ p = .running s ∧ runLoop fuel s = .answered r t ∧
        portEvent e p = (.response r, .ready t)) ∨
    (∃ fuel s t, e = .goOn fuel ∧ p = .running s ∧ runLoop fuel s = .noResponse t ∧
        portEvent e p = (.silence, .running t)) ∨
    (e = .reset ∧ portEvent e p = (.silence, .ready State.reset)) ∨
    ((portEvent e p).2 = p ∧ ∀ r, (portEvent e p).1 ≠ .response r) := by
  cases e with
  | reset => exact .inr (.inr (.inr (.inr (.inl ⟨rfl, rfl⟩))))
  | command c fuel =>
    cases p with
    | running s => exact .inr (.inr (.inr (.inr (.inr ⟨rfl, fun _ h => by cases h⟩))))
    | ready s =>
      cases h : hostCommand fuel c s with
      | answered r t => exact .inl ⟨c, fuel, r, s, t, rfl, rfl, h, by simp [portEvent, h]⟩
      | noResponse t => exact .inr (.inl ⟨c, fuel, s, t, rfl, rfl, h, by simp [portEvent, h]⟩)
      | refused r => exact .inr (.inr (.inr (.inr (.inr ⟨by simp [portEvent, h], by simp [portEvent, h]⟩))))
  | goOn fuel =>
    cases p with
    | ready s => exact .inr (.inr (.inr (.inr (.inr ⟨rfl, fun _ h => by cases h⟩))))
    | running s =>
      cases h : runLoop fuel s with
      | answered r t => exact .inr (.inr (.inl ⟨fuel, r, s, t, rfl, rfl, h, by simp [portEvent, h]⟩))
      | noResponse t => exact .inr (.inr (.inr (.inl ⟨fuel, s, t, rfl, rfl, h, by simp [portEvent, h]⟩)))
      | refused r => exact absurd h (runLoop_not_refused fuel s r)

end Sys2Proof.Machine
end

