-- ==== Sys2Proof/Tests/Slice0.lean ====
section
/-! SUPPORT. Checks of the model against the vectors of spec/95_test_vectors.md and the rules' own examples, and a witness for
the hypotheses of every statement. -/

namespace Sys2Proof.Tests

open Sys2Proof.Machine

/-! ### Helpers -/

/-- The state of NEW(cells) (95, section 1). -/
def image (cells : List Cell) : State := mcWriteList 0 cells State.reset

/-- A state at `pc` with one cell there. -/
def atPc (p : Addr) (w : Cell) : State := (mcWrite p w State.reset).setPc p

/-- What a step's next state shows, or its error. -/
def after {α : Type} (o : Host.Outcome State Fault Refusal) (f : State → α) : Option (Except Fault α) :=
  match o with
  | .next t => some (.ok (f t))
  | .fault e => some (.error e)
  | .refused _ => none

/-- The largest cell, `MAX`, and the smallest, `MIN`. -/
def maxCell : Cell := 9223372036854775807
def minCell : Cell := 9223372036854775808
def maxAddr : Addr := 9223372036854775807

/-! ### Well-formedness: an ill-formed term for each check (R105, R106) -/

theorem test_wellFormed_accepts :
    (Instr.add ⟨.position, 9⟩ ⟨.immediate, 5⟩ ⟨.relative, -1⟩).wellFormed = true := by decide
theorem test_wellFormed_rejects_immediate_destination :
    (Instr.add ⟨.position, 9⟩ ⟨.immediate, 5⟩ ⟨.immediate, 1⟩).wellFormed = false ∧
      (Instr.multiply ⟨.position, 9⟩ ⟨.immediate, 5⟩ ⟨.immediate, 1⟩).wellFormed = false ∧
      (Instr.lessThan ⟨.position, 9⟩ ⟨.immediate, 5⟩ ⟨.immediate, 1⟩).wellFormed = false ∧
      (Instr.equals ⟨.position, 9⟩ ⟨.immediate, 5⟩ ⟨.immediate, 1⟩).wellFormed = false ∧
      (Instr.input ⟨.immediate, 5⟩).wellFormed = false := by decide
theorem test_wellFormed_rejects_negative_position :
    (Instr.output ⟨.position, -1⟩).wellFormed = false ∧ (Instr.adjustRelativeBase ⟨.position, -1⟩).wellFormed = false ∧
      (Instr.jumpIfTrue ⟨.position, 0⟩ ⟨.position, -1⟩).wellFormed = false ∧
      (Instr.jumpIfFalse ⟨.position, -1⟩ ⟨.position, 0⟩).wellFormed = false ∧
      (Instr.input ⟨.position, -1⟩).wellFormed = false ∧ Instr.halt.wellFormed = true := by decide

/-! ### Decoding: words written out from R92, R101 and the vectors D-1 to D-17 -/

/-- Each constructor from a word `k + 100·m0 + 1000·m1 + 10000·m2` and its literals. -/
theorem test_decode_arithmetic :
    decode [1, 9, 10, 3, 2] = .ok (.add ⟨.position, 9⟩ ⟨.position, 10⟩ ⟨.position, 3⟩, [2]) ∧
    decode [1002, 4, 3, 4] = .ok (.multiply ⟨.position, 4⟩ ⟨.immediate, 3⟩ ⟨.position, 4⟩, []) ∧
    decode [1107, -1, 0, 5] = .ok (.lessThan ⟨.immediate, -1⟩ ⟨.immediate, 0⟩ ⟨.position, 5⟩, []) ∧
    decode [1008, 100, 16, 101] = .ok (.equals ⟨.position, 100⟩ ⟨.immediate, 16⟩ ⟨.position, 101⟩, []) := by decide

theorem test_decode_io :
    decode [203, -1] = .ok (.input ⟨.relative, -1⟩, []) ∧
    decode [104, 1125899906842624, 99] = .ok (.output ⟨.immediate, 1125899906842624⟩, [99]) := by decide

theorem test_decode_jumps :
    decode [1105, 1, 7] = .ok (.jumpIfTrue ⟨.immediate, 1⟩ ⟨.immediate, 7⟩, []) ∧
    decode [1006, 101, 0] = .ok (.jumpIfFalse ⟨.position, 101⟩ ⟨.immediate, 0⟩, []) := by decide

theorem test_decode_base_and_halt :
    decode [109, 1] = .ok (.adjustRelativeBase ⟨.immediate, 1⟩, []) ∧ decode [99] = .ok (.halt, []) := by decide

/-- R105's example. -/
theorem test_decode_example :
    decode [21001, 9, 5, -1] = .ok (.add ⟨.position, 9⟩ ⟨.immediate, 5⟩ ⟨.relative, -1⟩, []) := by decide

theorem test_decode_rejects :
    [0, 100, 98, -1, -98999, 30, 3398].map decodeWord = List.replicate 7 (.error .unknownOpcode) ∧
    [399, 3301, 99999, 4203].map decodeWord = List.replicate 4 (.error .unknownParameterMode) ∧
    decode [] = .error .truncated ∧ decode [1, 2, 3] = .error .truncated ∧
    decode [0] = .error (.badWord .unknownOpcode) := by decide

theorem test_decode_spare_digits :
    decodeWord 20099 = .ok ⟨.halt, .position, .position, .relative⟩ ∧
    decodeWord 100099 = .ok ⟨.halt, .position, .position, .position⟩ ∧
    decodeWord 201101 = .ok ⟨.add, .immediate, .immediate, .position⟩ ∧
    decodeWord 22201 = .ok ⟨.add, .relative, .relative, .relative⟩ ∧
    decodeWord 1099 = .ok ⟨.halt, .position, .immediate, .position⟩ := by decide

theorem test_encode :
    encode (.add ⟨.position, 9⟩ ⟨.immediate, 5⟩ ⟨.relative, -1⟩) = [21001, 9, 5, -1] ∧ encode .halt = [99] ∧
    assembleInstr (.input ⟨.immediate, 5⟩) = none := by decide

theorem test_table_word :
    decodeTableWord 8 99 = some .halt ∧ decodeTableWord 64 1002 = some (.multiply ⟨.position, 0⟩ ⟨.immediate, 0⟩ ⟨.position, 0⟩) ∧
    decodeTableWord 128 (104 + 7 * 2 ^ 64) = some (.output ⟨.immediate, 7⟩) ∧ decodeTableWord 8 0 = none := by decide

theorem test_withFetchWord :
    after (step (State.reset.withFetchWord 64 99)) State.state = some (.ok .halted) ∧
    after (step (State.reset.withFetchWord 128 (104 + 7 * 2 ^ 64))) State.outSlot = some (.ok (some 7)) ∧
    after (step ((atPc maxAddr 5).withFetchWord 64 99)) State.pc = some (.ok maxAddr) := by decide

/-! ### Instructions: vectors of 95, section 3 -/

/-- A-7 and A-2. -/
theorem test_add : after (step { image [22201, 0, 1, 2, 0, 0, 0, 0, 0, 0, 4, 6] with rb := 10 })
      (fun t => (mcRead 12 t, t.pc)) = some (.ok (10, 4)) ∧
    after (step (image [1101, maxCell, 1, 5])) State.pc = some (.error .arithmeticOverflow) := by decide

/-- A-6: the instruction overwrites its own word; A-24: operand 0 is checked before operand 2. -/
theorem test_add_order : after (step (image [1101, 1, 2, 0])) (fun t => (mcRead 0 t, t.pc)) = some (.ok (3, 4)) ∧
    after (step (image [10001, -1, 0, 0])) State.pc = some (.error .negativeAddress) := by decide

/-- A-13 and A-14. -/
theorem test_multiply : after (step (image [1102, -4294967296, 2147483648, 5])) (fun t => (mcRead 5 t, t.pc)) =
      some (.ok (minCell, 4)) ∧
    after (step (image [1102, -1, minCell, 5])) State.pc = some (.error .arithmeticOverflow) := by decide

/-- A-18, A-19, A-20. -/
theorem test_lessThan : after (step (image [1107, -1, 0, 5])) (mcRead 5) = some (.ok 1) ∧
    after (step (image [1107, 5, 5, 5])) (mcRead 5) = some (.ok 0) ∧
    after (step (image [1107, minCell, maxCell, 5])) (mcRead 5) = some (.ok 1) := by decide

/-- A-22, A-23. -/
theorem test_equals : after (step (image [1108, -1, 1, 5])) (mcRead 5) = some (.ok 0) ∧
    after (step (image [8, 0, 0, 5])) (mcRead 5) = some (.ok 1) := by decide

/-- I-1, I-6. -/
theorem test_input : after (step (image [3, 5])) (fun t => (t.state, t.pc)) = some (.ok (.blocked, 0)) ∧
    after (step { image [203, -1] with rb := 1, inSlot := some 9 }) (fun t => (mcRead 0 t, t.inSlot, t.pc, t.state)) =
      some (.ok (9, none, 2, .paused)) := by decide

/-- I-3, I-5: the destination is checked before the slot. -/
theorem test_input_faults : after (step { image [103, 5] with inSlot := some 7 }) State.pc = some (.error .immediateDestination) ∧
    after (step (image [3, -1])) State.pc = some (.error .negativeAddress) := by decide

/-- I-9, I-10. -/
theorem test_output : after (step { image [104, 2] with outSlot := some 1 }) (fun t => (t.outSlot, t.state, t.pc)) =
      some (.ok (some 2, .blocked, 2)) ∧
    after (step (image [204, -1])) State.pc = some (.error .negativeAddress) := by decide

/-- J-3, J-4, J-5, J-8, J-10. -/
theorem test_jumpIfTrue : after (step (image [1105, -3, 7])) State.pc = some (.ok 7) ∧
    after (step (image [1105, 1, -1])) State.pc = some (.error .negativeAddress) ∧
    after (step (image [1105, 0, -1])) State.pc = some (.ok 3) ∧
    after (step (image [105, 0, -1])) State.pc = some (.error .negativeAddress) ∧
    after (step (image [5, 3, 4, 1, 9])) State.pc = some (.ok 9) := by decide

/-- J-6, J-7. -/
theorem test_jumpIfFalse : after (step (image [1106, 0, 7])) State.pc = some (.ok 7) ∧
    after (step (image [1106, 5, 7])) State.pc = some (.ok 3) := by decide

/-- B-2 to B-5, B-7: the operand is read with the old base. -/
theorem test_adjustRelativeBase :
    after (step { image [109, -3] with rb := 3 }) (fun t => (t.rb, t.pc)) = some (.ok (0, 2)) ∧
    after (step { image [109, -4] with rb := 3 }) State.rb = some (.error .negativeAddress) ∧
    after (step { image [209, -1] with rb := 1 }) State.rb = some (.ok 210) ∧
    after (step { image [109, maxCell] with rb := 1 }) State.rb = some (.error .arithmeticOverflow) ∧
    after (step (image [9, 2, 7])) State.rb = some (.ok 7) := by decide

/-- H-5, H-3, H-2. -/
theorem test_halt : after (step (atPc maxAddr 99)) (fun t => (t.state, t.pc)) = some (.ok (.halted, maxAddr)) ∧
    after (step (image [399])) State.state = some (.error .unknownParameterMode) ∧
    after (step ((image [99]).setExec .halted)) State.state = some (.error .machineHalted) := by decide

/-- A-25: the literals would lie past the top. A-11: a Relative address above ADDR_MAX. -/
theorem test_top_of_memory :
    after (step (atPc (maxAddr - 2) 1101)) State.pc = some (.error .arithmeticOverflow) ∧
    after (step { image [201, 1, 0, 0] with rb := maxAddr }) State.pc = some (.error .arithmeticOverflow) ∧
    after (step ((mcWrite (maxAddr - 2) 1105 State.reset).setPc (maxAddr - 2))) State.pc =
      some (.error .arithmeticOverflow) := by decide

/-! ### The host port: vectors S, each one command -/

/-- I-12: a RUN at an Input with no value answers Blocked; then, in Blocked, STEP is turned away (S-1). -/
theorem test_run_blocks : hostCommand 5 .run (image [3, 5, 99]) = .answered (.ok 2) ((image [3, 5, 99]).setExec .blocked) ∧
    hostCommand 5 .step (((image [3, 0]).setExec .blocked).setIn (some 4)) =
      .answered (.error .machineBlocked) (((image [3, 0]).setExec .blocked).setIn (some 4)) := by decide

/-- S-6: a failed RUN keeps its completed step and leaves Running. -/
theorem test_run_fails : hostCommand 5 .run (image [1101, 1, 1, 5]) =
    .answered (.error .unknownOpcode) (((mcWrite 5 2 (image [1101, 1, 1, 5])).setPc 4).setExec .running) := by decide

/-- J-9: no fuel is enough for a jump to itself. -/
theorem test_run_hangs : hostCommand 9 .run (image [1105, 1, 0]) = .noResponse ((image [1105, 1, 0]).setExec .running) := by
  decide

/-- R230, R300, U16: while a RUN is in progress a NEW, a STATUS and an INPUT are held back; it goes on and answers; reset ends
it with no response. -/
theorem test_run_in_progress :
    portEvent (.command .run 1) (.ready (image [1101, 1, 1, 0, 99])) =
      (.silence, .running (((mcWrite 0 2 (image [1101, 1, 1, 0, 99])).setPc 4).setExec .running)) ∧
    portEvent (.command (.new []) 1) (.running (image [99])) = (.heldBack, .running (image [99])) ∧
    portEvent (.command (.status 1) 1) (.running (image [99])) = (.heldBack, .running (image [99])) ∧
    portEvent (.command (.input 5) 1) (.running (image [99])) = (.heldBack, .running (image [99])) ∧
    portEvent (.goOn 1) (.running ((image [99]).setExec .running)) = (.response (.ok 3), .ready ((image [99]).setExec .halted)) ∧
    portEvent .reset (.running (image [99])) = (.silence, .ready State.reset) ∧
    portEvent (.goOn 1) (.ready (image [99])) = (.silence, .ready (image [99])) := by
  refine ⟨?_, ?_, ?_, ?_, ?_, ?_, ?_⟩ <;> decide

/-- R7: a RUN in progress in one instance does not keep another from answering. -/
theorem test_instances : instancesEvent 1 (.command .output 0) [.running State.reset, .ready (State.reset.setOut (some 3))] =
    some (.response (.ok 3), [.running State.reset, .ready State.reset]) ∧
    instancesEvent 2 .reset [.ready State.reset, .ready State.reset] = none := by decide

/-- S-2, S-3, S-4, I-14, I-15. -/
theorem test_host_access :
    hostCommand 0 (.read (-1)) State.reset = .answered (.error .negativeAddress) State.reset ∧
    hostCommand 0 (.write (-5) 1) State.reset = .answered (.error .negativeAddress) State.reset ∧
    hostCommand 0 (.read 1000000000000000000) (mcWrite 1000000000000000000 7 State.reset) =
      .answered (.ok 7) (mcWrite 1000000000000000000 7 State.reset) ∧
    hostCommand 0 .output State.reset = .answered (.error .noOutput) State.reset ∧
    hostCommand 0 (.input 4) (State.reset.setIn (some 3)) =
      .answered (.error .inputAlreadyPopulated) (State.reset.setIn (some 3)) := by decide

/-- S-5: Blocked with a full output slot is 10; a full input slot in Paused is 4. S-9: an unknown selector gives 0. -/
theorem test_status :
    statusData 0 (((image [3]).setExec .blocked).setOut (some 7)) = 10 ∧ statusData 0 ((image [3]).setIn (some 7)) = 4 ∧
    statusData 2 (State.reset.setRb 5) = 5 ∧ statusData 5 (State.reset.setRb 5) = 0 := by decide

/-- S-10: NEW in Halted gives a fresh instance. -/
theorem test_new : hostCommand 0 (.new [99]) ((image [1, 2, 3]).setExec .halted) = .answered (.ok 0) (image [99]) := by decide

theorem one_mod_pageLen : 1 % Config.pageLen = 1 := by
  have h : 0 < 2 ^ Config.pageLenExp := Nat.two_pow_pos _
  unfold Config.pageLen
  rw [pow_succ]
  exact Nat.mod_eq_of_lt (by omega)

/-- M-3, M-4, M-5. -/
theorem test_load : mcLoad 1 [9] State.reset = .error .memoryAlignment ∧ mcLoad 1 [] State.reset = .error .memoryAlignment ∧
    mcLoad 0 [] State.reset = .ok State.reset := by
  have h : (1 : Addr).toNat % Config.pageLen ≠ 0 := by
    show 1 % Config.pageLen ≠ 0
    rw [one_mod_pageLen]
    decide
  exact ⟨by unfold mcLoad; rw [if_pos h], by unfold mcLoad; rw [if_pos h], mcLoad_zero (by simp) _⟩

/-- A write of 0 leaves no entry (the canonical form), and the page stays allocated. -/
theorem test_write_zero : (mcWrite 5 0 (mcWrite 5 7 State.reset)).mem = [] ∧
    (mcWrite 5 0 (mcWrite 5 7 State.reset)).written = [5] ∧
    (mcWrite 5 1 (mcWrite 9 2 (mcWrite 7 3 State.reset))).mem = [(5, 1), (7, 3), (9, 2)] := by decide

/-- The interface's machine is this one: the first step from reset fetches 0 (R122). -/
theorem test_core_from_reset : after (Sys2Proof.core.step Sys2Proof.core.reset) State.pc = some (.error .unknownOpcode) := by
  decide

/-- R247: a RUN that reaches Halted ends the execution. -/
theorem test_endsExecution : EndsExecution .run (hostCommand 5 .run (image [99])) :=
  ⟨.inl rfl, _, _, rfl, rfl⟩

/-! ### Witnesses: for each statement with hypotheses, values that meet them, one for each of its clauses -/

/-- Operands of the witnesses: a literal, the cell at an address, a cell at an offset from rb. -/
def imm (v : Cell) : Operand := ⟨.immediate, v⟩
def pos (v : Cell) : Operand := ⟨.position, v⟩
def rel (v : Cell) : Operand := ⟨.relative, v⟩

/-- Reset with pc `k` cells below the top of memory, and a pending input. -/
def nearTop (k : Addr) : State := (State.reset.setPc (maxAddr - k)).setIn (some 9)

theorem page_of_one : pageBase 1 = pageBase 0 := by
  have h := one_mod_pageLen
  have e := Nat.div_add_mod 1 Config.pageLen
  unfold pageBase
  rw [Nat.zero_div, Nat.zero_mul, Nat.mul_comm]
  omega

theorem witness_StepKeepsInv : (image [1101, 1, 2, 5]).Inv ∧ ∃ t, step (image [1101, 1, 2, 5]) = .next t :=
  ⟨by decide, _, rfl⟩

theorem witness_HostCommandKeepsInv : (image [1105, 1, 0]).Inv ∧
    (∃ r t, hostCommand 9 .step (image [1105, 1, 0]) = .answered r t) ∧
    ∃ t, hostCommand 9 .run (image [1105, 1, 0]) = .noResponse t := ⟨by decide, ⟨_, _, rfl⟩, _, rfl⟩

/-- Reset itself, where no page is allocated, a state with a written cell, and a RUN in progress. -/
theorem witness_ReachableStatesHaveInv : Reachable (.ready State.reset) ∧ ¬ State.reset.PageAllocated (pageBase (5 : Addr).toNat) ∧
    Reachable (.ready (mcWrite 0 7 State.reset)) ∧ ∃ s, Reachable (.running s) := by
  refine ⟨.reset, fun ⟨_, h, _⟩ => (List.not_mem_nil h).elim, ?_, State.reset.setExec .running, ?_⟩
  · exact .event (.command (.write 0 7) 0) .reset
  · exact .event (.command .run 0) .reset

theorem witness_ExecutionStateIsWrittenAsListed :
    (∃ t, exec (.output (imm 7)) State.reset = .next t) ∧ State.reset.state ≠ .halted ∧
    (∃ r t, hostCommand 0 .step (image [99]) = .answered r t) ∧ ([99] : List Cell).length ≤ Config.addrMax + 1 ∧
    (∃ r t, hostCommand 0 (.new [99]) State.reset = .answered r t) ∧
    (∃ r t, hostCommand 0 (.input 1) State.reset = .answered r t) ∧
    (∃ r t, hostCommand 0 .output State.reset = .answered r t) ∧
    (∃ r t, hostCommand 0 (.read (-1)) State.reset = .answered r t) ∧
    (∃ r t, hostCommand 0 (.write 3 4) State.reset = .answered r t) ∧
    ∃ r t, hostCommand 0 (.status 0) State.reset = .answered r t :=
  ⟨⟨_, rfl⟩, by decide, ⟨_, _, rfl⟩, by decide, ⟨.ok 0, image [99], by decide⟩, ⟨_, _, rfl⟩, ⟨_, _, rfl⟩, ⟨_, _, rfl⟩, ⟨_, _, rfl⟩,
    _, _, rfl⟩

theorem witness_OnlyAdjustMovesTheRelativeBase :
    ∃ t, exec (.adjustRelativeBase (imm maxCell)) State.reset = .next t ∧ t.rb ≠ State.reset.rb := ⟨_, rfl, by decide⟩

/-- The pc stays, advances, jumps. -/
theorem witness_PcStaysAdvancesOrJumps : (∃ t, exec .halt State.reset = .next t) ∧
    (∃ t, exec (.input (pos 5)) State.reset = .next t) ∧ (∃ t, exec (.add (imm 1) (imm 2) (pos 5)) State.reset = .next t) ∧
    ∃ t, exec (.jumpIfTrue (imm 1) (imm maxCell)) State.reset = .next t := ⟨⟨_, rfl⟩, ⟨_, rfl⟩, ⟨_, rfl⟩, _, rfl⟩

theorem witness_SlotsChangeOnlyByInputAndOutput :
    (∃ t, exec (.input (pos 5)) (State.reset.setIn (some 9)) = .next t ∧ t.inSlot ≠ some 9) ∧
    ∃ t, exec (.output (imm 7)) State.reset = .next t ∧ t.outSlot ≠ none := ⟨⟨_, rfl, by decide⟩, _, rfl, by decide⟩

theorem witness_CellsReadBackUntilOverwritten :
    (∀ w ∈ [((1 : Addr), (2 : Cell)), (maxAddr, 3)], w.1 ≠ (0 : Addr)) ∧ maxAddr ≠ 0 := by
  refine ⟨fun w h => ?_, by decide⟩
  rcases List.mem_cons.mp h with rfl | h
  · decide
  · rw [List.mem_singleton.mp h]
    decide

theorem witness_WriteSetsOneCellAndAllocatesItsPage : State.reset.Inv ∧ ¬ State.reset.PageAllocated (pageBase (0 : Addr).toNat) ∧
    pageBase (1 : Addr).toNat = pageBase (0 : Addr).toNat ∧ (1 : Addr) ≠ 0 :=
  ⟨by decide, fun ⟨_, h, _⟩ => (List.not_mem_nil h).elim, page_of_one, by decide⟩

/-- Unaligned; one cell too many for the address space; exactly as many as it has, with a last cell, and a cell above a
shorter list. -/
theorem witness_BulkLoadChecksThenWritesInOrder : (1 : Addr).toNat % Config.pageLen ≠ 0 ∧ (0 : Addr).toNat % Config.pageLen = 0 ∧
    Config.addrMax + 1 < (0 : Addr).toNat + (List.replicate (Config.addrMax + 2) (0 : Cell)).length ∧
    (0 : Addr).toNat + (List.replicate (Config.addrMax + 1) (0 : Cell)).length ≤ Config.addrMax + 1 ∧
    (Config.addrMax < (List.replicate (Config.addrMax + 1) (0 : Cell)).length ∧ maxAddr.toNat = (0 : Addr).toNat + Config.addrMax) ∧
    (0 : Addr).toNat + ([5, 6] : List Cell).length ≤ (2 : Addr).toNat := by
  refine ⟨?_, Nat.zero_mod _, ?_, ?_, ⟨?_, by decide⟩, by decide⟩
  · show 1 % Config.pageLen ≠ 0
    rw [one_mod_pageLen]
    decide
  · rw [List.length_replicate]
    decide
  · rw [List.length_replicate]
    decide
  · rw [List.length_replicate]
    decide

theorem witness_AllocatedPagesStayAllocated :
    (∃ t, exec (.add (imm 1) (imm 2) (pos 5)) (image [1101]) = .next t) ∧ (image [1101]).PageAllocated (pageBase 0) ∧
    (∀ im, Command.input 5 ≠ .new im) ∧ ∃ r t, hostCommand 0 (.input 5) (image [1101]) = .answered r t :=
  ⟨⟨_, rfl⟩, ⟨0, by decide, rfl⟩, fun _ h => (by cases h), _, _, rfl⟩

/-- A next state, an error, an answer, a silence and a refusal. -/
theorem witness_PagesAreUnobservable : (∃ t, step (image [99]) = .next t) ∧ step State.reset = .fault .unknownOpcode ∧
    (∃ r t, hostCommand 1 .run (image [99]) = .answered r t) ∧ (∃ t, hostCommand 9 .run (image [1105, 1, 0]) = .noResponse t) ∧
    hostCommand 0 (.new (List.replicate (Config.addrMax + 2) 0)) State.reset = .refused .imageTooLong := by
  have h : ∀ im : List Cell, Config.addrMax + 1 < im.length → hostCommand 0 (.new im) State.reset = .refused .imageTooLong :=
    fun _ h => if_pos h
  refine ⟨⟨_, rfl⟩, rfl, ⟨_, _, rfl⟩, ⟨_, rfl⟩, h _ ?_⟩
  rw [List.length_replicate]
  decide

theorem witness_DecodeReadsBackEncode :
    assembleInstr (.add (pos 9) (imm 5) (rel (-1))) = some [21001, 9, 5, -1] := by decide

theorem witness_OpcodeIsTheWordModulo100 : (minCell : Cell).toInt < 0 ∧ ∀ k : Opcode, (98 : Cell).toInt % 100 ≠ k.number :=
  ⟨by decide, fun k => by cases k <;> decide⟩

/-- A digit of 3 in each position, of an opcode that has that operand or not. -/
theorem witness_ModeDigitsAreAllChecked : decodeOpcode 21002 = .ok .multiply ∧ decodeOpcode 399 = .ok .halt ∧
    3 ≤ (399 : Cell).toInt / 100 % 10 ∧ decodeOpcode 3099 = .ok .halt ∧ 3 ≤ (3099 : Cell).toInt / 1000 % 10 ∧
    decodeOpcode 30002 = .ok .multiply ∧ 3 ≤ (30002 : Cell).toInt / 10000 % 10 := by decide

/-- No operand, one, two and three. -/
theorem witness_SpareDigitsMeanNothing : (0 ≤ (100099 : Cell).toInt ∧ (100099 : Cell).toInt % 100000 = (99 : Cell).toInt % 100000) ∧
    (1 ≤ Opcode.output.operandCount ∧ ¬ 2 ≤ Opcode.output.operandCount) ∧ ¬ 1 ≤ Opcode.halt.operandCount ∧
    (2 ≤ Opcode.jumpIfTrue.operandCount ∧ ¬ 3 ≤ Opcode.jumpIfTrue.operandCount) ∧ 3 ≤ Opcode.add.operandCount := by decide

theorem witness_LengthFollowsTheOpcodeAlone : decode [104, 5, 7] = .ok (.output (imm 5), [7]) := by decide

theorem witness_StepPreconditionByState : (State.reset.setExec .halted).state = .halted ∧
    (State.reset.setExec .blocked).state = .blocked ∧ State.reset.state = .paused ∧
    (State.reset.setExec .running).state = .running := by decide

/-- At address 0, and Halt as the last cell of memory. -/
theorem witness_StepRunsTheDecodedInstruction : ((image [104, 2]).Runnable ∧ decode (cellsAtPc (image [104, 2])) =
      .ok (.output (imm 2), [0, 0])) ∧ (atPc maxAddr 99).Runnable ∧ decode (cellsAtPc (atPc maxAddr 99)) = .ok (.halt, []) := by
  decide

theorem witness_FetchReadsTheCurrentCell : State.reset.Runnable ∧
    decodeWord (mcRead State.reset.pc State.reset) = .error .unknownOpcode ∧ mcRead State.reset.pc State.reset = 0 ∧
    ((image [399]).Runnable ∧ decodeWord (mcRead (image [399]).pc (image [399])) = .error .unknownParameterMode) ∧
    ((image [99]).Runnable ∧ decodeWord (mcRead (image [99]).pc (image [99])) = .ok ⟨.halt, .position, .position, .position⟩) ∧
    decodeWord (-99) = .error .unknownOpcode ∧ decodeWord 399 = .error .unknownParameterMode ∧
    decodeWord 99 = .ok ⟨.halt, .position, .position, .position⟩ := by decide

theorem witness_LiteralsPastTheTopFault : (atPc (maxAddr - 2) 1101).Runnable ∧
    decodeWord (mcRead (atPc (maxAddr - 2) 1101).pc (atPc (maxAddr - 2) 1101)) = .ok ⟨.add, .immediate, .immediate, .position⟩ ∧
    Config.addrMax < (atPc (maxAddr - 2) 1101).pc.toNat + Opcode.add.operandCount := by decide

/-- The ends of the address range, reached and passed, in both addressing modes. -/
theorem witness_SourceValueByMode : ((maxAddr.toNat : Int) = maxCell.toInt ∧ (-1 : Cell).toInt < 0) ∧
    (maxAddr.toNat : Int) = (State.reset.setRb maxAddr).rb.toNat + (0 : Cell).toInt ∧
    ((0 : Addr).toNat : Int) = (State.reset.setRb 1).rb.toNat + (-1 : Cell).toInt ∧
    (State.reset.rb.toNat + (-1 : Cell).toInt < 0) ∧
    Config.addrMax < (State.reset.setRb maxAddr).rb.toNat + (1 : Cell).toInt := by decide

theorem witness_DestinationAddressByMode : ((maxAddr.toNat : Int) = maxCell.toInt ∧ minCell.toInt < 0) ∧
    (maxAddr.toNat : Int) = (State.reset.setRb 1).rb.toNat + (maxCell - 1).toInt ∧
    ((State.reset.setRb maxAddr).rb.toNat + minCell.toInt < 0) ∧
    Config.addrMax < (State.reset.setRb 1).rb.toNat + maxCell.toInt := by decide

/-- Operand 0, 1 and 2 failing, of each shape. -/
theorem witness_OperandErrorsComeInIndexOrder :
    ThreeOperand (.add (pos (-1)) (imm 1) (imm 1)) (pos (-1)) (imm 1) (imm 1) ∧
    srcValue (pos (-1)) State.reset = .error .negativeAddress ∧ srcValue (imm 1) State.reset = .ok 1 ∧
    dstAddr (imm 1) State.reset = .error .immediateDestination :=
  ⟨.inl rfl, by decide, by decide, by decide⟩

/-- Each width at the first address from which it passes the top. -/
theorem witness_AdvancePastTheTopFaults : ThreeOperand (.equals (imm 1) (imm 1) (pos 5)) (imm 1) (imm 1) (pos 5) ∧
    (srcValue (imm 1) (nearTop 3) = .ok 1 ∧ dstAddr (pos 5) (nearTop 3) = .ok 5 ∧ Config.addrMax < (nearTop 3).pc.toNat + 4) ∧
    (srcValue (imm 0) (nearTop 2) = .ok 0 ∧ srcValue (imm 1) (nearTop 2) = .ok 1 ∧
      Config.addrMax < (nearTop 2).pc.toNat + 3 ∧ (0 : Cell).toInt = 0 ∧ (1 : Cell).toInt ≠ 0) ∧
    (srcValue (imm 0) (nearTop 1) = .ok 0 ∧ Config.addrMax < (nearTop 1).pc.toNat + 2 ∧
      0 ≤ (nearTop 1).rb.toNat + (0 : Cell).toInt ∧ dstAddr (pos 5) (nearTop 1) = .ok 5 ∧ (nearTop 1).inSlot = some 9) :=
  ⟨.inr (.inr (.inr rfl)), by decide, by decide, by decide⟩

/-- The largest sum, the smallest, the last address an Add completes at. -/
theorem witness_AddStoresTheExactSum : srcValue (imm maxCell) (nearTop 4) = .ok maxCell ∧ srcValue (imm 0) (nearTop 4) = .ok 0 ∧
    dstAddr (rel 5) (nearTop 4) = .ok 5 ∧ Config.cellMin ≤ maxCell.toInt + (0 : Cell).toInt ∧
    maxCell.toInt + (0 : Cell).toInt ≤ Config.cellMax ∧ (nearTop 4).pc.toNat + 4 ≤ Config.addrMax ∧
    Config.cellMin ≤ minCell.toInt + (0 : Cell).toInt ∧ minCell.toInt + (0 : Cell).toInt ≤ Config.cellMax := by decide

theorem witness_MultiplyStoresTheExactProduct : srcValue (imm (-4294967296)) State.reset = .ok (-4294967296) ∧
    srcValue (imm 2147483648) State.reset = .ok 2147483648 ∧ dstAddr (pos 5) State.reset = .ok 5 ∧
    Config.cellMin ≤ (-4294967296 : Cell).toInt * (2147483648 : Cell).toInt ∧
    (-4294967296 : Cell).toInt * (2147483648 : Cell).toInt ≤ Config.cellMax ∧
    State.reset.pc.toNat + 4 ≤ Config.addrMax := by decide

theorem witness_LessThanStoresItsTruthValue : srcValue (imm minCell) State.reset = .ok minCell ∧
    srcValue (imm maxCell) State.reset = .ok maxCell ∧ dstAddr (pos maxCell) State.reset = .ok maxAddr ∧
    minCell.toInt < maxCell.toInt ∧ State.reset.pc.toNat + 4 ≤ Config.addrMax := by decide

theorem witness_EqualsStoresItsTruthValue : srcValue (pos 3) State.reset = .ok 0 ∧ srcValue (imm 0) State.reset = .ok 0 ∧
    srcValue (imm 1) State.reset = .ok 1 ∧ dstAddr (pos 5) State.reset = .ok 5 ∧ (0 : Cell).toInt ≠ (1 : Cell).toInt ∧
    State.reset.pc.toNat + 4 ≤ Config.addrMax := by decide

/-- One past each end. -/
theorem witness_ResultsOutsideTheCellRangeFault : srcValue (imm maxCell) State.reset = .ok maxCell ∧
    srcValue (imm minCell) State.reset = .ok minCell ∧ srcValue (imm 1) State.reset = .ok 1 ∧
    srcValue (imm (-1)) State.reset = .ok (-1) ∧ dstAddr (pos 5) State.reset = .ok 5 ∧
    Config.cellMax < maxCell.toInt + (1 : Cell).toInt ∧ minCell.toInt + (-1 : Cell).toInt < Config.cellMin ∧
    Config.cellMax < minCell.toInt * (-1 : Cell).toInt ∧ maxCell.toInt * minCell.toInt < Config.cellMin := by decide

theorem witness_ThreeOperandFrame : ThreeOperand (.lessThan (imm 1) (imm 2) (pos 5)) (imm 1) (imm 2) (pos 5) ∧
    ∃ t, exec (.lessThan (imm 1) (imm 2) (pos 5)) State.reset = .next t := ⟨.inr (.inr (.inl rfl)), _, rfl⟩

theorem witness_InputTakesThePendingValue : dstAddr (pos 5) (nearTop 2) = .ok 5 ∧ (nearTop 2).inSlot = some 9 ∧
    (nearTop 2).pc.toNat + 2 ≤ Config.addrMax := by decide

/-- At the last address too. -/
theorem witness_InputBlocksOnAnEmptySlot : dstAddr (pos 5) (State.reset.setPc maxAddr) = .ok 5 ∧
    (State.reset.setPc maxAddr).inSlot = none := by decide

/-- Blocking, and taking a value. -/
theorem witness_InputFrame : (∃ t, exec (.input (pos 5)) State.reset = .next t) ∧ State.reset.inSlot = none ∧
    (∃ t, exec (.input (pos 5)) (State.reset.setIn (some 9)) = .next t) ∧ (State.reset.setIn (some 9)).inSlot ≠ none :=
  ⟨⟨_, rfl⟩, rfl, ⟨_, rfl⟩, by decide⟩

theorem witness_OutputFillsTheSlotAndBlocks : srcValue (pos 3) ((nearTop 2).setOut (some 1)) = .ok 0 ∧
    ((nearTop 2).setOut (some 1)).pc.toNat + 2 ≤ Config.addrMax := by decide

/-- Taken to the top of memory, and not taken. -/
theorem witness_JumpIfTrueJumpsOnNonZero : srcValue (imm (-3)) (nearTop 3) = .ok (-3) ∧ srcValue (imm 0) (nearTop 3) = .ok 0 ∧
    srcValue (imm maxCell) (nearTop 3) = .ok maxCell ∧ (-3 : Cell).toInt ≠ 0 ∧ 0 ≤ maxCell.toInt ∧ (0 : Cell).toInt = 0 ∧
    (nearTop 3).pc.toNat + 3 ≤ Config.addrMax := by decide

theorem witness_JumpIfFalseJumpsOnZero : srcValue (pos 8) State.reset = .ok 0 ∧ srcValue (imm 5) State.reset = .ok 5 ∧
    srcValue (imm 0) State.reset = .ok 0 ∧ (5 : Cell).toInt ≠ 0 ∧ 0 ≤ (0 : Cell).toInt ∧ (0 : Cell).toInt = 0 ∧
    State.reset.pc.toNat + 3 ≤ Config.addrMax := by decide

theorem witness_TakenJumpToANegativeTargetFaults : srcValue (imm 1) State.reset = .ok 1 ∧ srcValue (imm 0) State.reset = .ok 0 ∧
    srcValue (imm (-1)) State.reset = .ok (-1) ∧ (-1 : Cell).toInt < 0 ∧ (1 : Cell).toInt ≠ 0 ∧ (0 : Cell).toInt = 0 := by decide

/-- The base moves to each end of its range. -/
theorem witness_AdjustMovesTheBaseByItsOperand : srcValue (imm (-3)) (State.reset.setRb 3) = .ok (-3) ∧
    0 ≤ (State.reset.setRb 3).rb.toNat + (-3 : Cell).toInt ∧
    (State.reset.setRb 3).rb.toNat + (-3 : Cell).toInt ≤ Config.addrMax ∧ (State.reset.setRb 3).pc.toNat + 2 ≤ Config.addrMax ∧
    (srcValue (imm maxCell) (nearTop 2) = .ok maxCell ∧ 0 ≤ (nearTop 2).rb.toNat + maxCell.toInt ∧
      (nearTop 2).rb.toNat + maxCell.toInt ≤ Config.addrMax ∧ (nearTop 2).pc.toNat + 2 ≤ Config.addrMax) := by decide

/-- One past each end. -/
theorem witness_BaseOutsideTheAddressRangeFaults : srcValue (imm (-4)) (State.reset.setRb 3) = .ok (-4) ∧
    (State.reset.setRb 3).rb.toNat + (-4 : Cell).toInt < 0 ∧ srcValue (imm maxCell) (State.reset.setRb 1) = .ok maxCell ∧
    Config.addrMax < (State.reset.setRb 1).rb.toNat + maxCell.toInt := by decide

theorem witness_StorelessInstructionFrames : (∃ t, exec (.output (imm 7)) State.reset = .next t) ∧
    (∃ t, exec (.jumpIfTrue (imm 1) (imm 7)) State.reset = .next t) ∧
    (∃ t, exec (.jumpIfFalse (imm 1) (imm 7)) State.reset = .next t) ∧
    (∃ t, exec (.adjustRelativeBase (imm 7)) State.reset = .next t) ∧ ∃ t, exec .halt State.reset = .next t :=
  ⟨⟨_, rfl⟩, ⟨_, rfl⟩, ⟨_, rfl⟩, ⟨_, rfl⟩, _, rfl⟩

/-- Halted, with empty slots and with full ones. -/
theorem witness_HaltedIsTerminal : (State.reset.setExec .halted).state = .halted ∧ (State.reset.setExec .halted).inSlot = none ∧
    ((State.reset.setExec .halted).setOut (some 3)).state = .halted ∧
    ((State.reset.setExec .halted).setOut (some 3)).outSlot = some 3 ∧ 0 ≤ maxCell.toInt ∧
    (∃ r t, hostCommand 0 (.input 5) (State.reset.setExec .halted) = .answered r t) ∧ (∀ im, Command.input 5 ≠ .new im) ∧
    ([] : List Cell).length ≤ Config.addrMax + 1 ∧
    ∃ r t, hostCommand 0 (.new []) (State.reset.setExec .halted) = .answered r t :=
  ⟨rfl, rfl, rfl, rfl, by decide, ⟨_, _, rfl⟩, fun _ h => (by cases h), by decide, .ok 0, State.reset, by decide⟩

/-- A RUN that answers OK, one that answers an error, one that never answers; and one in Halted. -/
theorem witness_RunIsTheStepLoop : (State.reset.setExec .halted).state = .halted ∧ State.reset.state ≠ .halted ∧
    (∃ d t, hostCommand 1 .run (image [99]) = .answered (.ok d) t) ∧
    (∃ f t, hostCommand 1 .run State.reset = .answered (.error f) t) ∧
    ∃ u, RunningSteps 1 ((image [1105, 1, 0]).setExec .running) u :=
  ⟨rfl, by decide, ⟨_, _, rfl⟩, ⟨_, _, rfl⟩, _, .cons (t := (image [1105, 1, 0]).setExec .running) rfl rfl (.refl _)⟩

/-- A RUN that answers, one in progress, and the two ways it ends. -/
theorem witness_RunAnswersDoNotDependOnFuel : (∃ r t, hostCommand 1 .run (image [99]) = .answered r t) ∧
    (∃ t, hostCommand 0 .run (image [99]) = .noResponse t) ∧
    (∃ r s, portEvent (.goOn 1) (.running ((image [99]).setExec .running)) = (r, .ready s)) ∧
    ∃ r s, portEvent .reset (.running ((image [99]).setExec .running)) = (r, .ready s) :=
  ⟨⟨_, _, rfl⟩, ⟨_, rfl⟩, ⟨_, _, rfl⟩, _, _, rfl⟩

theorem witness_RunEndsBlockedHaltedOrRunning : (∃ d t, hostCommand 1 .run (image [99]) = .answered (.ok d) t) ∧
    (∃ d t, hostCommand 1 .run (image [3, 5]) = .answered (.ok d) t) ∧ State.reset.state ≠ .halted ∧
    ∃ f t, hostCommand 1 .run State.reset = .answered (.error f) t := ⟨⟨_, _, rfl⟩, ⟨_, _, rfl⟩, by decide, _, _, rfl⟩

theorem witness_RunWithoutInputBlocksAgain : ((image [3, 5]).setExec .blocked).state = .blocked ∧
    ((image [3, 5]).setExec .blocked).inSlot = none ∧
    fetchInstr ((image [3, 5]).setExec .blocked) = .ok (.input (pos 5)) ∧
    dstAddr (pos 5) ((image [3, 5]).setExec .blocked) = .ok 5 := by decide

/-- At address 0, and at the last address a jump fits. -/
theorem witness_SelfJumpNeverResponds : ((image [1105, 1, 0]).state ≠ .halted ∧ (image [1105, 1, 0]).pc.toNat + 2 ≤ Config.addrMax ∧
      mcRead (image [1105, 1, 0]).pc (image [1105, 1, 0]) = 1105 ∧ literalAt (image [1105, 1, 0]) 0 = 1 ∧
      literalAt (image [1105, 1, 0]) 1 = cellOfAddr (image [1105, 1, 0]).pc) ∧
    (State.reset.setPc (maxAddr - 2)).pc.toNat + 2 ≤ Config.addrMax := by decide

theorem witness_ErrorsChangeNothing : (∃ t, step (image [99]) = .next t) ∧ step State.reset = .fault .unknownOpcode ∧
    Command.output ≠ .run ∧ ∃ f t, hostCommand 0 .output State.reset = .answered (.error f) t :=
  ⟨⟨_, rfl⟩, rfl, by decide, _, _, rfl⟩

/-- A short image, and the longest. -/
theorem witness_NewLoadsTheImageIntoAFreshInstance : ([1, 2] : List Cell).length ≤ Config.addrMax + 1 ∧
    (List.replicate (Config.addrMax + 1) (7 : Cell)).length ≤ Config.addrMax + 1 :=
  ⟨by decide, by rw [List.length_replicate]⟩

theorem witness_InputCommandFillsAnEmptySlot : (State.reset.setIn (some 3)).inSlot = some 3 ∧ State.reset.inSlot = none := by
  decide

theorem witness_OutputCommandTakesTheValue : (State.reset.setOut (some 3)).outSlot = some 3 ∧ State.reset.outSlot = none ∧
    (State.reset.setExec .blocked).state = .blocked ∧ Command.step ≠ .run ∧ (∀ im, Command.step ≠ .new im) ∧
    ∃ r t, hostCommand 0 .step (State.reset.setExec .blocked) = .answered r t :=
  ⟨rfl, rfl, rfl, by decide, fun _ h => (by cases h), _, _, rfl⟩

theorem witness_ReadAndWritePassThrough : (-1 : Cell).toInt < 0 ∧ (maxAddr.toNat : Int) = maxCell.toInt ∧
    ((0 : Addr).toNat : Int) = (0 : Cell).toInt := by decide

theorem witness_StatusReadsTheControlState : (3 : Cell) ≠ 0 ∧ (3 : Cell) ≠ 1 ∧ (3 : Cell) ≠ 2 := by decide

/-- An instance whose port is ready, a command that is answered there, another instance, and no such instance. -/
theorem witness_InstancesAreIndependent :
    [PortState.ready (State.reset.setOut (some 3)), .running State.reset][0]? = some (.ready (State.reset.setOut (some 3))) ∧
    (∃ t, hostCommand 0 .output (State.reset.setOut (some 3)) = .answered (.ok 3) t) ∧ (1 : Nat) ≠ 0 ∧
    [PortState.ready State.reset, .running State.reset][2]? = none := ⟨rfl, ⟨_, rfl⟩, by decide, rfl⟩

end Sys2Proof.Tests
end

section
/-! SUPPORT. One inversion lemma per direct host command: everything it can do when it answers (spec R231 to R239). -/

namespace Sys2Proof.Machine

/-- RUN outside Halted sets Running and enters its loop (spec R135). -/
theorem hostRun_of_not_halted {s : State} (h : s.state ≠ .halted) (fuel : Nat) :
    hostRun fuel s = runLoop fuel (s.setExec .running) := if_neg h

/-- NEW with an image that fits always answers OK, with the image loaded into the reset state (spec R68, R231). -/
theorem hostNew_of_fits {prog : List Cell} (h : prog.length ≤ Config.addrMax + 1) (s : State) :
    hostNew prog s = .answered (.ok 0) (mcWriteList 0 prog State.reset) := by
  unfold hostNew
  rw [if_neg (Nat.not_lt.2 h), mcLoad_zero h]

/-- STEP's answer is its step's outcome: the next state, or the error with no change (spec R234). -/
theorem hostStep_answered_iff {s t : State} {r : Response} : hostStep s = .answered r t ↔
    step s = .next t ∧ r = .ok 0 ∨ ∃ f, step s = .fault f ∧ r = .error f ∧ t = s := by
  unfold hostStep
  cases step s <;> simp [respondError, eq_comm, and_comm]

/-- INPUT fills an empty slot, or errs on a full one (spec R236). -/
theorem hostInput_answered_iff {v : Cell} {s t : State} {r : Response} : hostInput v s = .answered r t ↔
    s.inSlot = none ∧ r = .ok 0 ∧ t = s.setIn (some v) ∨
      s.inSlot ≠ none ∧ r = .error .inputAlreadyPopulated ∧ t = s := by
  unfold hostInput
  cases s.inSlot <;> simp [respondError, eq_comm]

/-- OUTPUT empties a full slot, or errs on an empty one (spec R237). -/
theorem hostOutput_answered_iff {s t : State} {r : Response} : hostOutput s = .answered r t ↔
    (∃ v, s.outSlot = some v ∧ r = .ok v ∧ t = s.setOut none) ∨
      s.outSlot = none ∧ r = .error .noOutput ∧ t = s := by
  unfold hostOutput
  cases s.outSlot <;> simp [respondError, eq_comm]

/-- READ answers the cell, or errs below 0; it changes nothing (spec R238). -/
theorem hostRead_answered_iff {a : Cell} {s t : State} {r : Response} : hostRead a s = .answered r t ↔
    (a.toInt < 0 ∧ r = .error .negativeAddress ∨ ¬ a.toInt < 0 ∧ r = .ok (mcRead (addrOfNat a.toNat) s)) ∧ t = s := by
  unfold hostRead
  split <;> simp [respondError, eq_comm, *]

/-- WRITE stores the cell, or errs below 0 (spec R239). -/
theorem hostWrite_answered_iff {a v : Cell} {s t : State} {r : Response} : hostWrite a v s = .answered r t ↔
    a.toInt < 0 ∧ r = .error .negativeAddress ∧ t = s ∨
      ¬ a.toInt < 0 ∧ r = .ok 0 ∧ t = mcWrite (addrOfNat a.toNat) v s := by
  unfold hostWrite
  split <;> simp [respondError, eq_comm, *]

/-- STATUS answers its data and changes nothing (spec R241). -/
theorem hostStatus_answered_iff {sel : Cell} {s t : State} {r : Response} : hostStatus sel s = .answered r t ↔
    r = .ok (statusData sel s) ∧ t = s := by
  simp [hostStatus, eq_comm]

end Sys2Proof.Machine
end

section
/-! SUPPORT. Who writes the execution state (spec R36). -/

namespace Sys2Proof.Machine

/-- Input blocks on an empty slot, and keeps the execution state when it takes a value (spec R170). -/
theorem exec_input_next_state {d0 : Operand} {s t : State} (h : exec (.input d0) s = .next t) :
    t.state = if s.inSlot = none then .blocked else s.state := by
  obtain ⟨d, -, ⟨hin, rfl⟩ | ⟨v, p, hin, -, rfl⟩⟩ := exec_input_next_iff.1 h <;> simp [hin]

theorem hostInput_state {v : Cell} {s t : State} {r : Response} (h : hostInput v s = .answered r t) :
    t.state = s.state := by
  obtain ⟨-, -, rfl⟩ | ⟨-, -, rfl⟩ := hostInput_answered_iff.1 h <;> rfl

theorem hostOutput_state {s t : State} {r : Response} (h : hostOutput s = .answered r t) : t.state = s.state := by
  obtain ⟨-, -, -, rfl⟩ | ⟨-, -, rfl⟩ := hostOutput_answered_iff.1 h <;> rfl

theorem hostWrite_state {a v : Cell} {s t : State} {r : Response} (h : hostWrite a v s = .answered r t) :
    t.state = s.state := by
  obtain ⟨-, -, rfl⟩ | ⟨-, -, rfl⟩ := hostWrite_answered_iff.1 h <;> rfl

/-- Settles O6: by cases on the instruction, each by what it does when it answers, and by what each host command does
when it answers. -/
theorem executionStateIsWrittenAsListed : Obligations.ExecutionStateIsWrittenAsListed := by
  refine ⟨fun i s t h => ?instruction, fun fuel s hs => ⟨hostRun_of_not_halted hs fuel, rfl⟩,
    fun fuel s r t h => (hostStep_answered_iff.1 h).imp And.left fun ⟨_, _, _, e⟩ => congrArg State.state e,
    fun fuel prog s r t hlen h => ?new, fun s => rfl, fun fuel v s r t h => hostInput_state h,
    fun fuel s r t h => hostOutput_state h,
    fun fuel a s r t h => congrArg State.state (hostRead_answered_iff.1 h).2,
    fun fuel a v s r t h => hostWrite_state h,
    fun fuel sel s r t h => congrArg State.state (hostStatus_answered_iff.1 h).2⟩
  case instruction =>
    cases i with
    | input => exact exec_input_next_state h
    | output =>
      obtain ⟨_, _, _, _, rfl⟩ := exec_output_next_iff.1 h
      rfl
    | halt =>
      obtain rfl := exec_halt_next_iff.1 h
      rfl
    | add =>
      obtain ⟨_, _, _, _, _, _, _, _, _, _, rfl⟩ := exec_add_next_iff.1 h
      rfl
    | multiply =>
      obtain ⟨_, _, _, _, _, _, _, _, _, _, rfl⟩ := exec_multiply_next_iff.1 h
      rfl
    | lessThan =>
      obtain ⟨_, _, _, _, _, _, _, _, _, _, rfl⟩ := exec_lessThan_next_iff.1 h
      rfl
    | equals =>
      obtain ⟨_, _, _, _, _, _, _, _, _, _, rfl⟩ := exec_equals_next_iff.1 h
      rfl
    | jumpIfTrue =>
      obtain ⟨_, _, _, _, _, _, rfl⟩ := exec_jumpIfTrue_next_iff.1 h
      rfl
    | jumpIfFalse =>
      obtain ⟨_, _, _, _, _, _, rfl⟩ := exec_jumpIfFalse_next_iff.1 h
      rfl
    | adjustRelativeBase =>
      obtain ⟨_, _, _, _, _, _, rfl⟩ := exec_adjustRelativeBase_next_iff.1 h
      rfl
  case new =>
    obtain ⟨-, rfl⟩ := PortOutcome.answered.inj ((hostNew_of_fits hlen s).symm.trans h)
    obtain ⟨-, -, hstate, -, -⟩ := mcWriteList_registers prog 0 State.reset
    exact hstate

end Sys2Proof.Machine
end

section
/-! SUPPORT. What single writes and sequences of writes leave to read (spec R63, R65). -/

namespace Sys2Proof.Machine

/-- A sequence of writes leaves a cell that none of them names as it was. -/
theorem mcRead_writeAll_of_forall_ne {a : Addr} (ws : List (Addr × Cell)) : ∀ s : State, (∀ w ∈ ws, w.1 ≠ a) →
    mcRead a (writeAll ws s) = mcRead a s := by
  induction ws with
  | nil => exact fun _ _ => rfl
  | cons w ws ih =>
    intro s h
    obtain ⟨hw, hws⟩ := List.forall_mem_cons.1 h
    calc mcRead a (writeAll (w :: ws) s)
        = mcRead a (mcWrite w.1 w.2 s) := ih (mcWrite w.1 w.2 s) hws
      _ = mcRead a s := mcRead_mcWrite_other hw.symm w.2 s

/-- A write to a page that was not allocated leaves 0 in every other cell of the page: with the invariant the cell read 0
before (spec R62), and the write passes it by. -/
theorem mcRead_mcWrite_of_page_not_allocated {a b : Addr} {s : State} (hs : s.Inv)
    (hp : ¬ s.PageAllocated (pageBase a.toNat)) (hpage : pageBase b.toNat = pageBase a.toNat) (hb : b ≠ a) (v : Cell) :
    mcRead b (mcWrite a v s) = 0 := by
  rw [mcRead_mcWrite_other hb]
  exact mcRead_of_not_allocated hs (hpage ▸ hp)

/-- Settles O10: the later writes, none of them to the cell, leave it as the write left it. -/
theorem cellsReadBackUntilOverwritten : Obligations.CellsReadBackUntilOverwritten := by
  refine ⟨fun a v s ws hws => ?readBack, fun a b v s hb => mcRead_mcWrite_other hb v s, fun a => rfl⟩
  case readBack =>
    rw [mcRead_writeAll_of_forall_ne ws _ hws]
    exact mcRead_mcWrite_same a v s

/-- Settles O11: what a read gives after a write, which pages it allocates, and the zeros of the page it allocates. -/
theorem writeSetsOneCellAndAllocatesItsPage : Obligations.WriteSetsOneCellAndAllocatesItsPage := fun a v s =>
  ⟨mcRead_mcWrite_same a v s, fun _ hb => mcRead_mcWrite_other hb v s, mcWrite_pageAllocated a v s,
    fun hs hp _ hpage hb => mcRead_mcWrite_of_page_not_allocated hs hp hpage hb v⟩

end Sys2Proof.Machine
end

section
/-! SUPPORT. Which errors a step can raise, by the phase that raises them (spec R121, R122, R124). -/

namespace Sys2Proof.Machine

/-- A state that refuses a step gives the step its error, whatever memory holds (spec R121). -/
theorem step_of_checkRunnable_error {s : State} {k : Fault} (h : checkRunnable s = .error k) : step s = .fault k := by
  unfold step
  rw [h]

/-- A step that may proceed takes its fetch's error. -/
theorem step_of_fetchInstr_error {s : State} {k : Fault} (hr : s.Runnable) (h : fetchInstr s = .error k) :
    step s = .fault k := by
  rw [step_of_runnable hr, h]

/-- The fetch fails with the word's error where the word does not decode (spec R122). -/
theorem fetchInstr_of_decodeWord_error {s : State} {e : WordError} (h : decodeWord (mcRead s.pc s) = .error e) :
    fetchInstr s = .error (wordFault e) := by
  unfold fetchInstr
  rw [h]

/-- The fetch of a word that decodes can fail for its literals alone (spec R124). -/
theorem fetchInstr_error_of_decodeWord_ok {s : State} {f : WordFields} {k : Fault}
    (h : decodeWord (mcRead s.pc s) = .ok f) (hk : fetchInstr s = .error k) : k = .arithmeticOverflow := by
  unfold fetchInstr at hk
  rw [h] at hk
  dsimp only at hk
  split at hk
  · exact (Except.error.inj hk).symm
  · cases hk

/-- A step that may proceed and whose word `w` does not decode ends with the word's error (spec R122). -/
theorem step_of_decodeWord_error {s : State} {w : Cell} {e : WordError} (hr : s.Runnable) (hw : mcRead s.pc s = w)
    (h : decodeWord w = .error e) : step s = .fault (wordFault e) :=
  step_of_fetchInstr_error hr (fetchInstr_of_decodeWord_error (hw ▸ h))

/-- A step that may proceed and whose word `w` decodes raises only an instruction's kinds: past the word, the fetch's one
error is among them. -/
theorem execFaultKind_of_decodeWord_ok {s : State} {w : Cell} {f : WordFields} {k : Fault} (hr : s.Runnable)
    (hw : mcRead s.pc s = w) (h : decodeWord w = .ok f) (hk : step s = .fault k) : execFaultKind k := by
  cases hi : fetchInstr s with
  | error k' =>
    obtain rfl : k' = k := Host.Outcome.fault.inj ((step_of_fetchInstr_error hr hi).symm.trans hk)
    exact .inr (.inl (fetchInstr_error_of_decodeWord_ok (hw ▸ h) hi))
  | ok i => exact exec_fault_kind ((step_of_fetch hr hi).symm.trans hk)

/-- The errors of a step that may proceed are the word's and the instruction's. -/
theorem step_fault_kind_of_runnable {s : State} {k : Fault} (hr : s.Runnable) (hk : step s = .fault k) :
    (∃ e, k = wordFault e) ∨ execFaultKind k := by
  cases h : decodeWord (mcRead s.pc s) with
  | error e => exact .inl ⟨e, Host.Outcome.fault.inj (hk.symm.trans (step_of_decodeWord_error hr rfl h))⟩
  | ok f => exact .inr (execFaultKind_of_decodeWord_ok hr rfl h hk)

/-- Neither of the precondition's errors is a word's or an instruction's. -/
theorem fault_ne_precondition {k : Fault} (h : (∃ e, k = wordFault e) ∨ execFaultKind k) :
    k ≠ .machineHalted ∧ k ≠ .machineBlocked := by
  obtain ⟨e, rfl⟩ | rfl | rfl | rfl := h
  · cases e <;> decide
  · decide
  · decide
  · decide

/-- Neither of a word's errors is an instruction's. -/
theorem fault_ne_word {k : Fault} (h : execFaultKind k) : k ≠ .unknownOpcode ∧ k ≠ .unknownParameterMode := by
  obtain rfl | rfl | rfl := h <;> decide

/-- A step that may proceed and whose word `w` decodes raises neither of a word's errors. -/
theorem step_not_word_fault {s : State} {w : Cell} {f : WordFields} (hr : s.Runnable) (hw : mcRead s.pc s = w)
    (h : decodeWord w = .ok f) : step s ≠ .fault .unknownOpcode ∧ step s ≠ .fault .unknownParameterMode :=
  ⟨fun hk => (fault_ne_word (execFaultKind_of_decodeWord_ok hr hw h hk)).1 rfl,
    fun hk => (fault_ne_word (execFaultKind_of_decodeWord_ok hr hw h hk)).2 rfl⟩

/-- Never-written memory holds no opcode (spec R93, R122). -/
theorem decodeWord_zero : decodeWord 0 = .error .unknownOpcode := by decide

/-- Settles O22: the precondition decides in Halted and Blocked; past it, no phase of the step raises its errors. -/
theorem stepPreconditionByState : Obligations.StepPreconditionByState := by
  refine ⟨fun s hs => step_of_checkRunnable_error ?halted, fun s hs => step_of_checkRunnable_error ?blocked,
    fun s hr => ⟨fun hk => (fault_ne_precondition (step_fault_kind_of_runnable hr hk)).1 rfl,
      fun hk => (fault_ne_precondition (step_fault_kind_of_runnable hr hk)).2 rfl⟩⟩
  case halted => rw [checkRunnable, hs]
  case blocked => rw [checkRunnable, hs]

/-- Settles O24: the fetch decodes the word that a read at pc gives, which after a write there is the word written. -/
theorem fetchReadsTheCurrentCell : Obligations.FetchReadsTheCurrentCell := by
  refine fun s hr => ⟨step_of_decodeWord_error hr rfl, step_of_decodeWord_error hr rfl,
    fun f => step_not_word_fault hr rfl, fun h0 => step_of_decodeWord_error hr h0 decodeWord_zero, fun w => ?written⟩
  case written =>
    have hw : mcRead (mcWrite s.pc w s).pc (mcWrite s.pc w s) = w := mcRead_mcWrite_same s.pc w s
    have hr' : (mcWrite s.pc w s).Runnable := hr
    exact ⟨step_of_decodeWord_error hr' hw, step_of_decodeWord_error hr' hw, fun f => step_not_word_fault hr' hw⟩

end Sys2Proof.Machine
end

section
/-! SUPPORT. What INPUT does on a full slot and on an empty one (spec R236). -/

namespace Sys2Proof.Machine

/-- A full slot turns INPUT away with an error and no change (spec R236). -/
theorem hostInput_of_full {w : Cell} {s : State} (h : s.inSlot = some w) (v : Cell) :
    hostInput v s = .answered (.error .inputAlreadyPopulated) s :=
  hostInput_answered_iff.2 (.inr ⟨Option.ne_none_iff_exists'.2 ⟨w, h⟩, rfl, rfl⟩)

/-- INPUT answers OK on an empty slot and writes nothing but the slot (spec R236). -/
theorem hostInput_of_empty {s : State} (h : s.inSlot = none) (v : Cell) :
    hostInput v s = .answered (.ok 0) (s.setIn (some v)) :=
  hostInput_answered_iff.2 (.inl ⟨h, rfl, rfl⟩)

/-- Settles O55: by cases on the slot; the answer on an empty one is the state with its slot set, whose other fields,
memory and pages are the former state's. -/
theorem inputCommandFillsAnEmptySlot : Obligations.InputCommandFillsAnEmptySlot := by
  refine fun s fuel v => ⟨fun w hfull => hostInput_of_full hfull v, fun hempty => ?filled⟩
  case filled =>
    have hmem : MemorySame s (s.setIn (some v)) := fun a => mcRead_setIn a s (some v)
    have hpages : PagesSame s (s.setIn (some v)) := fun _ => Iff.rfl
    exact ⟨s.setIn (some v), hostInput_of_empty hempty v, State.setIn_inSlot s _, State.setIn_outSlot s _, hmem, hpages,
      State.setIn_pc s _, State.setIn_rb s _, State.setIn_state s _⟩

end Sys2Proof.Machine
end

section
/-! SUPPORT. The invariant along instructions, steps, a RUN's loop, host commands and port events (spec R42, R44, R63). -/

namespace Sys2Proof.Machine

/-- An instruction changes memory and the addresses written by one store at most, which keeps the invariant. -/
theorem inv_exec {i : Instr} {s t : State} (hs : s.Inv) (h : exec i s = .next t) : t.Inv := by
  obtain ⟨hm, hw⟩ | ⟨d, v, hm, hw⟩ := exec_next_cases h
  · exact inv_of_same hs hm hw
  · exact inv_of_same (inv_mcWrite hs d v) hm hw

/-- Settles O3: a step that answers a next state is an instruction's. -/
theorem stepKeepsInv : Obligations.StepKeepsInv := fun _ _ hs h =>
  let ⟨_, _, _, hexec⟩ := step_next_iff.1 h
  inv_exec hs hexec

/-- What every step keeps, a RUN's loop keeps: in the state it answers with and in the one it stands in. -/
theorem runLoop_induct {P : State → Prop} (hstep : ∀ s t, P s → step s = .next t → P t) {fuel : Nat} {s : State}
    (hs : P s) : (∀ r t, runLoop fuel s = .answered r t → P t) ∧ ∀ t, runLoop fuel s = .noResponse t → P t := by
  refine ⟨fun r t h => ?answered, fun t h => (runLoop_noResponse h).induct hstep hs⟩
  case answered =>
    obtain ⟨n, u, hsteps, ⟨hlast, -, -⟩ | ⟨f, -, -, rfl⟩⟩ := runLoop_answered h
    · exact hstep u t (hsteps.induct hstep hs) hlast
    · exact hsteps.induct hstep hs

/-- In Halted, RUN errs and changes nothing (spec R135). -/
theorem hostRun_of_halted {s : State} (h : s.state = .halted) (fuel : Nat) :
    hostRun fuel s = .answered (.error .machineHalted) s :=
  if_pos h

/-- A RUN answers an error and no change in Halted, and what its loop answers elsewhere (spec R135). -/
theorem hostRun_answered_iff {fuel : Nat} {s t : State} {r : Response} : hostRun fuel s = .answered r t ↔
    s.state = .halted ∧ r = .error .machineHalted ∧ t = s ∨
      s.state ≠ .halted ∧ runLoop fuel (s.setExec .running) = .answered r t := by
  by_cases h : s.state = .halted
  · simp [hostRun_of_halted, h, eq_comm]
  · simp [hostRun_of_not_halted h, h]

/-- Only RUN can be without a response, and only outside Halted (spec R135, R139). -/
theorem hostCommand_noResponse {fuel : Nat} {c : Command} {s t : State} (h : hostCommand fuel c s = .noResponse t) :
    c = .run ∧ s.state ≠ .halted ∧ runLoop fuel (s.setExec .running) = .noResponse t := by
  cases c with
  | run =>
    by_cases hs : s.state = .halted
    · cases (hostRun_of_halted hs fuel).symm.trans h
    · exact ⟨rfl, hs, (hostRun_of_not_halted hs fuel).symm.trans h⟩
  | new image =>
    simp only [hostCommand, hostNew] at h
    split at h
    · cases h
    · split at h <;> cases h
  | step =>
    simp only [hostCommand, hostStep] at h
    split at h <;> cases h
  | input v =>
    simp only [hostCommand, hostInput] at h
    split at h <;> cases h
  | output =>
    simp only [hostCommand, hostOutput] at h
    split at h <;> cases h
  | read a =>
    simp only [hostCommand, hostRead] at h
    split at h <;> cases h
  | write a v =>
    simp only [hostCommand, hostWrite] at h
    split at h <;> cases h
  | status sel => cases h

/-- Settles O2, by evaluation: nothing is listed at reset. -/
theorem invHoldsAtReset : Obligations.InvHoldsAtReset := by
  unfold Obligations.InvHoldsAtReset
  decide

/-- Setting a register or a slot keeps the invariant, which speaks of memory alone; the loop of a RUN and WRITE keep it as
steps and stores do. -/
theorem inv_hostCommand {fuel : Nat} {c : Command} {r : Response} {s t : State} (hs : s.Inv)
    (h : hostCommand fuel c s = .answered r t) : t.Inv :=
  hostCommand_induct stepKeepsInv (fun image => inv_mcWriteList image invHoldsAtReset)
    (fun _ h => inv_of_same h rfl rfl) (fun _ _ h => inv_of_same h rfl rfl) (fun _ h => inv_of_same h rfl rfl)
    (fun _ a v h => inv_mcWrite h a v) hs h

/-- Settles O4: an answered command keeps the invariant; a RUN in progress stands where running steps have led. -/
theorem hostCommandKeepsInv : Obligations.HostCommandKeepsInv := by
  refine fun s fuel c hs => ⟨fun r t => inv_hostCommand hs, fun t h => ?inProgress⟩
  case inProgress =>
    obtain ⟨-, -, hloop⟩ := hostCommand_noResponse h
    have hrunning : (s.setExec .running).Inv := inv_of_same hs rfl rfl
    exact (runLoop_induct stepKeepsInv hrunning).2 t hloop

/-- What every event keeps of the port: the invariant of the state behind it, and Running while a RUN is in progress. -/
def PortState.Inv (p : PortState) : Prop := p.machine.Inv ∧ ∀ s, p = .running s → s.state = .running

theorem PortState.Inv.ready {s : State} (h : s.Inv) : (PortState.ready s).Inv := ⟨h, nofun⟩

theorem PortState.Inv.running {s : State} (h : s.Inv) (hr : s.state = .running) : (PortState.running s).Inv :=
  ⟨h, fun _ e => PortState.running.inj e ▸ hr⟩

/-- Every event at the port keeps the port's invariant. -/
theorem portEvent_keeps_inv {p : PortState} (hp : p.Inv) (e : PortEvent) : (portEvent e p).2.Inv := by
  obtain ⟨hinv, hrunning⟩ := hp
  obtain ⟨c, fuel, r, s, t, -, rfl, h, heq⟩ | ⟨c, fuel, s, t, -, rfl, h, heq⟩ | ⟨fuel, r, s, t, -, rfl, h, heq⟩ |
    ⟨fuel, s, t, -, rfl, h, heq⟩ | ⟨-, heq⟩ | ⟨heq, -⟩ := portEvent_cases e p <;> rw [heq]
  · exact .ready (inv_hostCommand hinv h)
  · obtain ⟨-, -, hloop⟩ := hostCommand_noResponse h
    exact .running ((hostCommandKeepsInv s fuel c hinv).2 t h) ((runLoop_noResponse hloop).state_running rfl)
  · exact .ready ((runLoop_induct stepKeepsInv hinv).1 r t h)
  · exact .running ((runLoop_induct stepKeepsInv hinv).2 t h)
      ((runLoop_noResponse h).state_running (hrunning s rfl))
  · exact .ready invHoldsAtReset
  · exact ⟨hinv, hrunning⟩

/-- The port's invariant holds of every reachable state: at reset, and kept by each event. -/
theorem Reachable.inv {p : PortState} (h : Reachable p) : p.Inv := by
  induction h with
  | reset => exact .ready invHoldsAtReset
  | event e _ ih => exact portEvent_keeps_inv ih e

/-- Settles O5: the port's invariant, and with it the zeros of pages not allocated. -/
theorem reachableStatesHaveInv : Obligations.ReachableStatesHaveInv := fun _ h =>
  let ⟨hinv, hrunning⟩ := h.inv
  ⟨hinv, fun _ hpage => mcRead_of_not_allocated hinv hpage, hrunning⟩

end Sys2Proof.Machine
end

section
/-! SUPPORT. The decoder, field by field: exactly when it answers, with what, and its errors (spec R90 to R103). -/

namespace Sys2Proof

/-- The opcode of a word that is not negative is the one with the number of its last two digits (spec R93). -/
theorem decodeOpcode_ok_iff {w : Cell} {k : Opcode} :
    decodeOpcode w = .ok k ↔ 0 ≤ w.toInt ∧ w.toNat % 100 = k.number := by
  rw [← Opcode.ofNumber_eq_some_iff]
  unfold decodeOpcode
  split
  · simp_all
  · split <;> simp_all

theorem decodeOpcode_error_kind {w : Cell} {e : WordError} (h : decodeOpcode w = .error e) : e = .unknownOpcode := by
  unfold decodeOpcode at h
  split at h
  · exact (Except.error.inj h).symm
  · split at h
    · cases h
    · exact (Except.error.inj h).symm

theorem decodeMode_error_kind {w : Cell} {i : Nat} {e : WordError} (h : decodeMode w i = .error e) :
    e = .unknownParameterMode := by
  unfold decodeMode at h
  split at h
  · cases h
  · exact (Except.error.inj h).symm

/-- A word decodes when its opcode and its three modes do (spec R103). -/
theorem decodeWord_ok_iff {w : Cell} {f : WordFields} : decodeWord w = .ok f ↔
    decodeOpcode w = .ok f.op ∧ decodeMode w 0 = .ok f.m0 ∧ decodeMode w 1 = .ok f.m1 ∧ decodeMode w 2 = .ok f.m2 := by
  unfold decodeWord
  simp only [Machine.except_bind_ok, pure, Except.pure, Except.ok.injEq]
  constructor
  · rintro ⟨k, hk, m0, h0, m1, h1, m2, h2, rfl⟩
    exact ⟨hk, h0, h1, h2⟩
  · rintro ⟨hk, h0, h1, h2⟩
    exact ⟨_, hk, _, h0, _, h1, _, h2, rfl⟩

/-- The opcode is decoded first (spec R103): a word of no opcode is UnknownOpcode, whatever its modes. -/
theorem decodeWord_unknownOpcode {w : Cell} (h : ∀ k, decodeOpcode w ≠ .ok k) :
    decodeWord w = .error .unknownOpcode := by
  cases hk : decodeOpcode w with
  | ok k => exact absurd hk (h k)
  | error e =>
    obtain rfl := decodeOpcode_error_kind hk
    exact Machine.except_bind_error.2 (.inl hk)

/-- Past the opcode, a word's one error is a mode's (spec R94). -/
theorem decodeWord_error_of_decodeOpcode_ok {w : Cell} {k : Opcode} {e : WordError} (hk : decodeOpcode w = .ok k)
    (h : decodeWord w = .error e) : e = .unknownParameterMode := by
  unfold decodeWord at h
  rw [hk] at h
  obtain h | ⟨k', -, h⟩ := Machine.except_bind_error.1 h
  · cases h
  · simp only [Machine.except_bind_error, pure, Except.pure, reduceCtorEq, and_false, exists_false, or_false] at h
    obtain h | ⟨_, _, h | ⟨_, _, h⟩⟩ := h <;> exact decodeMode_error_kind h

/-- Which cells decode to an instruction, and what follows it (spec R97, R98, R100). -/
theorem decode_cons_ok_iff {w : Cell} {cells rest : List Cell} {i : Instr} : decode (w :: cells) = .ok (i, rest) ↔
    ∃ f, decodeWord w = .ok f ∧ f.op.operandCount ≤ cells.length ∧ f.assemble (fun j => cells.getD j 0) = i ∧
      cells.drop f.op.operandCount = rest := by
  cases hw : decodeWord w with
  | error e => simp [decode, hw]
  | ok f =>
    by_cases hlen : cells.length < f.op.operandCount
    · simp [decode, hw, hlen, Nat.not_le_of_lt hlen]
    · simp [decode, hw, hlen, Nat.le_of_not_lt hlen]

theorem WordFields.assemble_opcode (f : WordFields) (raw : Nat → Cell) : (f.assemble raw).opcode = f.op := by
  obtain ⟨k, m0, m1, m2⟩ := f
  cases k <;> rfl

theorem Opcode.width_eq (k : Opcode) : k.width = k.operandCount + 1 :=
  (Nat.sub_add_cancel (width_bounds k).1).symm

/-- An instruction's word is that of its opcode and modes, so that its operands follow it as its literals. -/
theorem decode_encode_append (i : Instr) (rest : List Cell) : decode (encode i ++ rest) = .ok (i, rest) := by
  cases i <;> exact decode_cons_ok_iff.2 ⟨_, decodeWord_encodeWord _ _ _ _, Nat.le_add_left _ _, rfl, rfl⟩

/-- Settles O16: what an assembler writes is the encoding too, with nothing after it. -/
theorem decodeReadsBackEncode : Obligations.DecodeReadsBackEncode := by
  refine ⟨decode_encode_append, fun i cells h => ?assembled⟩
  case assembled =>
    obtain ⟨-, hcells⟩ := Option.ite_none_right_eq_some.1 h
    obtain rfl := Option.some.inj hcells
    simpa using decode_encode_append i []

/-- Settles O17: the twelve fixed words are decoded. -/
theorem sourceWordsDecodeAsListed : Obligations.SourceWordsDecodeAsListed := by
  unfold Obligations.SourceWordsDecodeAsListed
  decide

/-- The opcode of a word as the statements read it, in signed arithmetic. -/
theorem decodeOpcode_ok_iff_toInt {w : Cell} {k : Opcode} :
    decodeOpcode w = .ok k ↔ 0 ≤ w.toInt ∧ w.toInt % 100 = k.number := by
  rw [decodeOpcode_ok_iff]
  refine and_congr_right fun hw => ?_
  rw [Machine.toInt_of_nonneg hw]
  omega

/-- Settles O18: a word decodes to an opcode exactly as R93 says, and a word of no opcode has no fields. -/
theorem opcodeIsTheWordModulo100 : Obligations.OpcodeIsTheWordModulo100 := by
  refine ⟨fun w => ⟨fun k => decodeOpcode_ok_iff_toInt, fun hneg => ?negative, fun hnone => ?undefined⟩,
    rfl, rfl, rfl, rfl, rfl, rfl, rfl, rfl, rfl, rfl⟩
  case negative => exact decodeWord_unknownOpcode fun k hk => (decodeOpcode_ok_iff_toInt.1 hk).1.not_gt hneg
  case undefined => exact decodeWord_unknownOpcode fun k hk => hnone k (decodeOpcode_ok_iff_toInt.1 hk).2

theorem Mode.number_le_two (m : Mode) : m.number ≤ 2 := by
  cases m <;> decide

/-- The fields of a word with a defined opcode: the modes are digits 2, 3 and 4 (spec R94). -/
theorem decodeWord_ok_iff_digits {w : Cell} {k : Opcode} (hk : decodeOpcode w = .ok k) (m0 m1 m2 : Mode) :
    decodeWord w = .ok ⟨k, m0, m1, m2⟩ ↔
      w.toInt / 100 % 10 = m0.number ∧ w.toInt / 1000 % 10 = m1.number ∧ w.toInt / 10000 % 10 = m2.number := by
  rw [decodeWord_ok_iff, Machine.toInt_of_nonneg (decodeOpcode_ok_iff.1 hk).1]
  simp only [hk, true_and, decodeMode_ok_iff, digit]
  norm_cast

/-- Settles O19: the digits are the modes', whose numbers stop at 2; the opcode given, the error can be a mode's alone. -/
theorem modeDigitsAreAllChecked : Obligations.ModeDigitsAreAllChecked := by
  refine ⟨⟨rfl, rfl, rfl⟩, fun w k hk => ⟨decodeWord_ok_iff_digits hk, fun hdigit => ?badMode⟩⟩
  case badMode =>
    cases h : decodeWord w with
    | error e => rw [decodeWord_error_of_decodeOpcode_ok hk h]
    | ok f =>
      obtain rfl : f.op = k := Except.ok.inj ((decodeWord_ok_iff.1 h).1.symm.trans hk)
      obtain ⟨h0, h1, h2⟩ := (decodeWord_ok_iff_digits hk f.m0 f.m1 f.m2).1 h
      have := f.m0.number_le_two
      have := f.m1.number_le_two
      have := f.m2.number_le_two
      omega

/-- The decoder reads the last five digits of a word that is not negative (spec R93, R94, R95). -/
theorem decodeWord_congr {w w' : Cell} (hw : 0 ≤ w.toInt) (hw' : 0 ≤ w'.toInt)
    (h : w.toNat % 100000 = w'.toNat % 100000) : decodeWord w = decodeWord w' := by
  have hop : decodeOpcode w = decodeOpcode w' := by
    unfold decodeOpcode
    rw [if_neg hw.not_gt, if_neg hw'.not_gt, show w.toNat % 100 = w'.toNat % 100 by omega]
  have hmode (i : Nat) (hi : digit w.toNat (i + 2) = digit w'.toNat (i + 2)) : decodeMode w i = decodeMode w' i := by
    unfold decodeMode
    rw [hi]
  have h0 : w.toNat / 100 % 10 = w'.toNat / 100 % 10 := by omega
  have h1 : w.toNat / 1000 % 10 = w'.toNat / 1000 % 10 := by omega
  have h2 : w.toNat / 10000 % 10 = w'.toNat / 10000 % 10 := by omega
  unfold decodeWord
  rw [hop, hmode 0 h0, hmode 1 h1, hmode 2 h2]

/-- Settles O20: by the digits the decoder reads, and by cases on the opcode that is assembled. -/
theorem spareDigitsMeanNothing : Obligations.SpareDigitsMeanNothing := by
  refine ⟨fun w w' hw hw' h => decodeWord_congr hw hw' ?digits, fun f g raw hop h0 h1 h2 => ?modes⟩
  case digits =>
    rw [Machine.toInt_of_nonneg hw, Machine.toInt_of_nonneg hw'] at h
    exact_mod_cast h
  case modes =>
    obtain ⟨k, f0, f1, f2⟩ := f
    obtain ⟨_, g0, g1, g2⟩ := g
    obtain rfl := hop
    cases k <;> simp_all [WordFields.assemble, Opcode.operandCount, Opcode.width]

/-- Settles O21: the decoder takes the word and its opcode's operands. -/
theorem lengthFollowsTheOpcodeAlone : Obligations.LengthFollowsTheOpcodeAlone := by
  refine ⟨fun w cells rest i h => ?cells, fun k => by cases k <;> rfl⟩
  case cells =>
    obtain ⟨f, hf, hlen, rfl, rfl⟩ := decode_cons_ok_iff.1 h
    rw [f.assemble_opcode, f.op.width_eq]
    refine ⟨(decodeWord_ok_iff.1 hf).1, ?_, (List.take_append_drop (f.op.operandCount + 1) (w :: cells)).symm⟩
    rw [List.length_drop]
    omega

end Sys2Proof
end

section
/-! SUPPORT. The effects an instruction can have, said once, and what they move: the relative base, pc, the slots, the
pages (spec R33, R34, R37, R38, R42). -/

namespace Sys2Proof.Machine

/-- What an instruction that answers has done: `Effect i s t` says how `t` comes from `s`. -/
inductive Effect : Instr → State → State → Prop where
  /-- A three-operand instruction has stored its result and advanced (spec R150 to R156). -/
  | stored {i : Instr} {s0 s1 d2 : Operand} {s : State} {d p : Addr} (r : Cell) (hi : ThreeOperand i s0 s1 d2)
      (hd : dstAddr d2 s = .ok d) (hp : p.toNat = s.pc.toNat + i.opcode.width) : Effect i s ((mcWrite d r s).setPc p)
  /-- Input has blocked on an empty slot (spec R170). -/
  | blocked {d0 : Operand} {s : State} {d : Addr} (hd : dstAddr d0 s = .ok d) (hin : s.inSlot = none) :
      Effect (.input d0) s (s.setExec .blocked)
  /-- Input has taken the pending value and advanced (spec R170). -/
  | taken {d0 : Operand} {s : State} {d p : Addr} {v : Cell} (hd : dstAddr d0 s = .ok d) (hin : s.inSlot = some v)
      (hp : p.toNat = s.pc.toNat + Opcode.input.width) : Effect (.input d0) s (((mcWrite d v s).setIn none).setPc p)
  /-- Output has filled its slot, blocked and advanced (spec R175). -/
  | emitted {s0 : Operand} {s : State} {v : Cell} {p : Addr} (hv : srcValue s0 s = .ok v)
      (hp : p.toNat = s.pc.toNat + Opcode.output.width) :
      Effect (.output s0) s (((s.setOut (some v)).setExec .blocked).setPc p)
  /-- A jump has gone to its target's value or advanced (spec R190, R192). -/
  | jumped {i : Instr} {s0 s1 : Operand} {s : State} {v : Cell} {p : Addr}
      (hi : i = .jumpIfTrue s0 s1 ∨ i = .jumpIfFalse s0 s1) (hv : srcValue s1 s = .ok v)
      (hp : (p.toNat : Int) = v.toInt ∨ p.toNat = s.pc.toNat + i.opcode.width) : Effect i s (s.setPc p)
  /-- AdjustRelativeBase has moved the base and advanced (spec R210). -/
  | adjusted {s0 : Operand} {s : State} {v : Cell} {b p : Addr} (hv : srcValue s0 s = .ok v)
      (hb : (b.toNat : Int) = s.rb.toNat + v.toInt) (hp : p.toNat = s.pc.toNat + Opcode.adjustRelativeBase.width) :
      Effect (.adjustRelativeBase s0) s ((s.setRb b).setPc p)
  /-- Halt has stopped where it stands (spec R215). -/
  | halted {s : State} : Effect .halt s (s.setExec .halted)

/-- The next pc of a conditional jump: the target's value, or the advance. -/
theorem jump_pc_cases {taken : Bool} {v : Cell} {k : Opcode} {s : State} {p : Addr}
    (h : (if taken then checkAddr v.toInt else nextPc k s) = .ok p) :
    (p.toNat : Int) = v.toInt ∨ p.toNat = s.pc.toNat + k.width := by
  split at h
  · exact .inl (checkAddr_ok_iff.1 h)
  · exact .inr (nextPc_ok_iff.1 h)

/-- Every instruction that answers has one of the effects. -/
theorem exec_next_effect {i : Instr} {s t : State} (h : exec i s = .next t) : Effect i s t := by
  cases i with
  | add s0 s1 d2 =>
    obtain ⟨_, _, d, r, p, -, -, hd, -, hp, rfl⟩ := exec_add_next_iff.1 h
    exact .stored r (.inl rfl) hd (nextPc_ok_iff.1 hp)
  | multiply s0 s1 d2 =>
    obtain ⟨_, _, d, r, p, -, -, hd, -, hp, rfl⟩ := exec_multiply_next_iff.1 h
    exact .stored r (.inr (.inl rfl)) hd (nextPc_ok_iff.1 hp)
  | lessThan s0 s1 d2 =>
    obtain ⟨_, _, d, r, p, -, -, hd, -, hp, rfl⟩ := exec_lessThan_next_iff.1 h
    exact .stored r (.inr (.inr (.inl rfl))) hd (nextPc_ok_iff.1 hp)
  | equals s0 s1 d2 =>
    obtain ⟨_, _, d, r, p, -, -, hd, -, hp, rfl⟩ := exec_equals_next_iff.1 h
    exact .stored r (.inr (.inr (.inr rfl))) hd (nextPc_ok_iff.1 hp)
  | input d0 =>
    obtain ⟨d, hd, ⟨hin, rfl⟩ | ⟨v, p, hin, hp, rfl⟩⟩ := exec_input_next_iff.1 h
    · exact .blocked hd hin
    · exact .taken hd hin (nextPc_ok_iff.1 hp)
  | output s0 =>
    obtain ⟨v, p, hv, hp, rfl⟩ := exec_output_next_iff.1 h
    exact .emitted hv (nextPc_ok_iff.1 hp)
  | jumpIfTrue s0 s1 =>
    obtain ⟨_, v, p, -, hv, hp, rfl⟩ := exec_jumpIfTrue_next_iff.1 h
    exact .jumped (.inl rfl) hv (jump_pc_cases hp)
  | jumpIfFalse s0 s1 =>
    obtain ⟨_, v, p, -, hv, hp, rfl⟩ := exec_jumpIfFalse_next_iff.1 h
    exact .jumped (.inr rfl) hv (jump_pc_cases hp)
  | adjustRelativeBase s0 =>
    obtain ⟨v, b, p, hv, hb, hp, rfl⟩ := exec_adjustRelativeBase_next_iff.1 h
    exact .adjusted hv hb (nextPc_ok_iff.1 hp)
  | halt =>
    obtain rfl := exec_halt_next_iff.1 h
    exact .halted

/-- Settles O7: of the effects, `adjusted` alone writes the base. -/
theorem onlyAdjustMovesTheRelativeBase : Obligations.OnlyAdjustMovesTheRelativeBase := by
  intro i s t h hne
  cases exec_next_effect h with
  | adjusted hv hb _ => exact ⟨_, _, rfl, hv, hb⟩
  | stored | blocked | taken | emitted | jumped | halted => exact absurd rfl hne

/-- Settles O8: `blocked` and `halted` leave pc, `jumped` may send it to the target, and all others advance. -/
theorem pcStaysAdvancesOrJumps : Obligations.PcStaysAdvancesOrJumps := by
  intro i s t h
  cases exec_next_effect h with
  | halted => exact .inl ⟨rfl, .inl rfl⟩
  | blocked _ hin => exact .inl ⟨rfl, .inr ⟨⟨_, rfl⟩, hin⟩⟩
  | jumped hi hv hp =>
    obtain htarget | hadvance := hp
    · exact .inr (.inr ⟨_, _, _, hi, hv, htarget⟩)
    · exact .inr (.inl hadvance)
  | stored _ _ _ hp | taken _ _ hp | emitted _ hp | adjusted _ _ hp => exact .inr (.inl hp)

/-- Settles O9: of the effects, `taken` alone writes the input slot and `emitted` alone the output slot. -/
theorem slotsChangeOnlyByInputAndOutput : Obligations.SlotsChangeOnlyByInputAndOutput := by
  intro i s t h
  cases exec_next_effect h with
  | taken _ hin _ => exact ⟨fun _ => ⟨_, _, rfl, hin, rfl⟩, absurd rfl⟩
  | emitted hv _ => exact ⟨absurd rfl, fun _ => ⟨_, _, rfl, hv, rfl⟩⟩
  | stored | blocked | jumped | adjusted | halted => exact ⟨absurd rfl, absurd rfl⟩

/-! ### The pages -/

/-- A write allocates pages and takes none away (spec R42). -/
theorem pageAllocated_mcWrite {s : State} {p : Nat} (h : s.PageAllocated p) (a : Addr) (v : Cell) :
    (mcWrite a v s).PageAllocated p :=
  (mcWrite_pageAllocated a v s p).2 (.inl h)

/-- The allocated pages are a matter of the addresses written alone. -/
theorem pageAllocated_of_written_eq {s t : State} {p : Nat} (hw : t.written = s.written) (h : s.PageAllocated p) :
    t.PageAllocated p := by
  unfold State.PageAllocated
  rwa [hw]

theorem pageAllocated_exec {i : Instr} {s t : State} {p : Nat} (h : exec i s = .next t) (hp : s.PageAllocated p) :
    t.PageAllocated p := by
  obtain ⟨-, hw⟩ | ⟨d, v, -, hw⟩ := exec_next_cases h
  · exact pageAllocated_of_written_eq hw hp
  · exact pageAllocated_of_written_eq hw (pageAllocated_mcWrite hp d v)

theorem pageAllocated_step {p : Nat} (s t : State) (hp : s.PageAllocated p) (h : step s = .next t) :
    t.PageAllocated p :=
  let ⟨_, _, _, hexec⟩ := step_next_iff.1 h
  pageAllocated_exec hexec hp

/-- INPUT, OUTPUT, READ, WRITE and STATUS leave pc, the relative base and the execution state, and keep the pages (spec
R236 to R241). -/
theorem hostCommand_direct {fuel : Nat} {c : Command} {r : Response} {s t : State} (hnew : ∀ image, c ≠ .new image)
    (hrun : c ≠ .run) (hstep : c ≠ .step) (h : hostCommand fuel c s = .answered r t) :
    t.pc = s.pc ∧ t.rb = s.rb ∧ t.state = s.state ∧ ∀ p, s.PageAllocated p → t.PageAllocated p := by
  cases c with
  | new image => exact absurd rfl (hnew image)
  | run => exact absurd rfl hrun
  | step => exact absurd rfl hstep
  | input v =>
    obtain ⟨-, -, rfl⟩ | ⟨-, -, rfl⟩ := hostInput_answered_iff.1 h <;> exact ⟨rfl, rfl, rfl, fun _ => id⟩
  | output =>
    obtain ⟨_, -, -, rfl⟩ | ⟨-, -, rfl⟩ := hostOutput_answered_iff.1 h <;> exact ⟨rfl, rfl, rfl, fun _ => id⟩
  | read a =>
    obtain ⟨-, rfl⟩ := hostRead_answered_iff.1 h
    exact ⟨rfl, rfl, rfl, fun _ => id⟩
  | write a v =>
    obtain ⟨-, -, rfl⟩ | ⟨-, -, rfl⟩ := hostWrite_answered_iff.1 h
    · exact ⟨rfl, rfl, rfl, fun _ => id⟩
    · exact ⟨rfl, rfl, rfl, fun _ hp => pageAllocated_mcWrite hp _ v⟩
  | status sel =>
    obtain ⟨-, rfl⟩ := hostStatus_answered_iff.1 h
    exact ⟨rfl, rfl, rfl, fun _ => id⟩

/-- Settles O14: instructions and commands write cells, and a write keeps the pages. -/
theorem allocatedPagesStayAllocated : Obligations.AllocatedPagesStayAllocated := by
  refine ⟨fun i s t p h => pageAllocated_exec h, fun fuel c s r t p hnew h hp => ?command⟩
  case command =>
    by_cases hrun : c = .run
    · obtain ⟨-, -, rfl⟩ | ⟨-, hloop⟩ := hostRun_answered_iff.1 (hrun ▸ h)
      · exact hp
      · have hp' : (s.setExec .running).PageAllocated p := hp
        exact (runLoop_induct pageAllocated_step hp').1 r t hloop
    by_cases hstep : c = .step
    · obtain ⟨hnext, -⟩ | ⟨_, -, -, rfl⟩ := hostStep_answered_iff.1 (hstep ▸ h)
      · exact pageAllocated_step s t hp hnext
      · exact hp
    · obtain ⟨-, -, -, hpages⟩ := hostCommand_direct hnew hrun hstep h
      exact hpages p hp

end Sys2Proof.Machine
end

section
/-! SUPPORT. Sequences of writes, the bulk load and NEW (spec R64, R66 to R68, R231). -/

namespace Sys2Proof.Machine

/-- What a sequence of writes leaves in a cell: the last value written there, or what the cell held before. -/
theorem mcRead_writeAll (a : Addr) (ws : List (Addr × Cell)) : ∀ s : State,
    mcRead a (writeAll ws s) = ws.foldl (fun v w => if w.1 = a then w.2 else v) (mcRead a s) := by
  induction ws with
  | nil => exact fun _ => rfl
  | cons w ws ih =>
    intro s
    calc mcRead a (writeAll (w :: ws) s)
        = ws.foldl (fun v w => if w.1 = a then w.2 else v) (mcRead a (mcWrite w.1 w.2 s)) := ih (mcWrite w.1 w.2 s)
      _ = (w :: ws).foldl (fun v w => if w.1 = a then w.2 else v) (mcRead a s) := by
        rw [List.foldl_cons, mcRead_mcWrite]
        simp only [eq_comm]

/-- Settles O12: a fresh address space holds 0. -/
theorem memoryHoldsTheLastWrite : Obligations.MemoryHoldsTheLastWrite := fun ws a =>
  mcRead_writeAll a ws State.reset

/-- An unaligned start fails, whatever the list (spec R66). -/
theorem mcLoad_unaligned {start : Addr} (h : start.toNat % Config.pageLen ≠ 0) (vs : List Cell) (s : State) :
    mcLoad start vs s = .error .memoryAlignment :=
  if_pos h

/-- An aligned start fails for a list that would pass the top of memory (spec R68). -/
theorem mcLoad_past_top {start : Addr} {vs : List Cell} (h : start.toNat % Config.pageLen = 0)
    (hlen : Config.addrMax + 1 < start.toNat + vs.length) (s : State) :
    mcLoad start vs s = .error .arithmeticOverflow := by
  have := Addr.toNat_le start
  unfold mcLoad
  rw [if_neg (not_not_intro h), if_pos (by omega)]

/-- An aligned list within memory is written in order (spec R67). -/
theorem mcLoad_of_fits {start : Addr} {vs : List Cell} (h : start.toNat % Config.pageLen = 0)
    (hlen : start.toNat + vs.length ≤ Config.addrMax + 1) (s : State) :
    mcLoad start vs s = .ok (mcWriteList start vs s) := by
  unfold mcLoad
  rw [if_neg (not_not_intro h), if_neg (by omega)]

/-- Settles O13: the two checks in their order, and then what the list written in order leaves to read. -/
theorem bulkLoadChecksThenWritesInOrder : Obligations.BulkLoadChecksThenWritesInOrder := by
  refine fun start vs s => ⟨fun h => mcLoad_unaligned h vs s, fun h hlen => mcLoad_past_top h hlen s,
    fun h hlen => ?loaded⟩
  case loaded =>
    obtain ⟨hpc, hrb, hstate, hin, hout⟩ := mcWriteList_registers vs start s
    refine ⟨_, mcLoad_of_fits h hlen s, fun j hj a ha => ?inside, fun a ha => ?outside,
      fun p => mcWriteList_pageAllocated vs start s p hlen, hpc, hrb, hstate, hin, hout⟩
    case inside =>
      rw [mcRead_mcWriteList vs start s a hlen, if_pos (by omega), ha, Nat.add_sub_cancel_left]
      exact List.getD_eq_getElem vs 0 hj
    case outside => rw [mcRead_mcWriteList vs start s a hlen, if_neg (by omega)]

/-- Addresses are counted on as numbers are, above the top of memory too. -/
theorem addrOfNat_add_one (n : Nat) : addrOfNat n + 1 = addrOfNat (n + 1) :=
  (BitVec.ofNat_add n 1).symm

/-- A list written in order is a WRITE for each of its cells (spec R231). -/
theorem mcWriteList_eq_foldl (vs : List Cell) : ∀ (n : Nat) (s : State), mcWriteList (addrOfNat n) vs s =
    (vs.zipIdx n).foldl (fun u x => mcWrite (addrOfNat x.2) x.1 u) s := by
  induction vs with
  | nil => exact fun _ _ => rfl
  | cons v vs ih =>
    intro n s
    rw [List.zipIdx_cons, List.foldl_cons, ← ih, ← addrOfNat_add_one]
    rfl

/-- The cells of an image loaded at 0 into a fresh address space: the image's, and 0 above it. -/
theorem mcRead_mcWriteList_reset {image : List Cell} (hlen : image.length ≤ Config.addrMax + 1) (a : Addr) :
    mcRead a (mcWriteList 0 image State.reset) = image.getD a.toNat 0 := by
  have h0 : (0 : Addr).toNat = 0 := rfl
  rw [mcRead_mcWriteList image 0 State.reset a (by omega), h0, Nat.sub_zero]
  split
  · rfl
  · exact (List.getD_eq_default image 0 (by omega)).symm

/-- Settles O54: NEW loads the image at 0 into the reset state, and a bulk write leaves the registers. -/
theorem newLoadsTheImageIntoAFreshInstance : Obligations.NewLoadsTheImageIntoAFreshInstance := by
  intro image s fuel hlen
  obtain ⟨hpc, hrb, hstate, hin, hout⟩ := mcWriteList_registers image 0 State.reset
  exact ⟨_, hostNew_of_fits hlen s, mcRead_mcWriteList_reset hlen, congrArg BitVec.toNat hpc, congrArg BitVec.toNat hrb,
    hstate, hin, hout, mcWriteList_eq_foldl image 0 State.reset⟩

end Sys2Proof.Machine
end

section
/-! SUPPORT. The record of written addresses decides nothing: a step and a command from two states that differ in it alone
end alike (spec R42). -/

namespace Sys2Proof.Machine

/-- `s` with another record of the addresses written. -/
def State.withWritten (s : State) (l : List Nat) : State := { s with written := l }

theorem mcWrite_withWritten (d : Addr) (v : Cell) (s : State) (l : List Nat) :
    mcWrite d v (s.withWritten l) = (mcWrite d v s).withWritten (insertAddr d.toNat l) := rfl

theorem checkRunnable_withWritten (s : State) (l : List Nat) : checkRunnable (s.withWritten l) = checkRunnable s := rfl

theorem fetchInstr_withWritten (s : State) (l : List Nat) : fetchInstr (s.withWritten l) = fetchInstr s := rfl

theorem srcValue_withWritten (o : Operand) (s : State) (l : List Nat) :
    srcValue o (s.withWritten l) = srcValue o s := rfl

theorem dstAddr_withWritten (o : Operand) (s : State) (l : List Nat) : dstAddr o (s.withWritten l) = dstAddr o s := rfl

theorem nextPc_withWritten (k : Opcode) (s : State) (l : List Nat) : nextPc k (s.withWritten l) = nextPc k s := rfl

/-! ### The checks of an instruction -/

/-- Two results of a step's checks that differ in the record alone. -/
inductive SameResult : Except Fault State → Except Fault State → Prop where
  | ok (t : State) (l : List Nat) : SameResult (.ok t) (.ok (t.withWritten l))
  | error (f : Fault) : SameResult (.error f) (.error f)

/-- A check whose outcome does not depend on the record comes before results that are alike. -/
theorem SameResult.bind {α : Type} {g g' : α → Except Fault State} : ∀ x : Except Fault α,
    (∀ a, SameResult (g a) (g' a)) → SameResult (x >>= g) (x >>= g')
  | .ok a, h => h a
  | .error f, _ => .error f

theorem binaryOp_sameResult (k : Opcode) (f : Cell → Cell → Except Fault Cell) (s0 s1 d2 : Operand) (s : State)
    (l : List Nat) : SameResult (binaryOp k f s0 s1 d2 s) (binaryOp k f s0 s1 d2 (s.withWritten l)) := by
  simp only [binaryOp, srcValue_withWritten, dstAddr_withWritten, nextPc_withWritten, mcWrite_withWritten]
  exact .bind _ fun _ => .bind _ fun _ => .bind _ fun d => .bind _ fun _ => .bind _ fun _ =>
    .ok _ (insertAddr d.toNat l)

theorem condJump_sameResult (k : Opcode) (taken : Cell → Bool) (s0 s1 : Operand) (s : State) (l : List Nat) :
    SameResult (condJump k taken s0 s1 s) (condJump k taken s0 s1 (s.withWritten l)) := by
  simp only [condJump, srcValue_withWritten, nextPc_withWritten]
  refine .bind _ fun c => .bind _ fun v => ?_
  split
  · exact .bind _ fun _ => .ok _ l
  · exact .bind _ fun _ => .ok _ l

theorem takeInput_sameResult (d : Addr) (s : State) (l : List Nat) :
    SameResult (takeInput d s) (takeInput d (s.withWritten l)) := by
  have hin : (s.withWritten l).inSlot = s.inSlot := rfl
  unfold takeInput
  rw [hin]
  cases s.inSlot with
  | none => exact .ok (s.setExec .blocked) l
  | some v =>
    simp only [nextPc_withWritten, mcWrite_withWritten]
    exact .bind _ fun _ => .ok _ (insertAddr d.toNat l)

/-! ### Steps -/

/-- Two outcomes of a step that differ in the record alone; no step is refused. -/
inductive SameOutcome : Host.Outcome State Fault Refusal → Host.Outcome State Fault Refusal → Prop where
  | next (t : State) (l : List Nat) : SameOutcome (.next t) (.next (t.withWritten l))
  | fault (f : Fault) : SameOutcome (.fault f) (.fault f)

theorem SameResult.finish {x y : Except Fault State} (h : SameResult x y) :
    SameOutcome (Machine.finish x) (Machine.finish y) := by
  cases h with
  | ok t l => exact .next t l
  | error f => exact .fault f

theorem exec_sameOutcome (i : Instr) (s : State) (l : List Nat) : SameOutcome (exec i s) (exec i (s.withWritten l)) := by
  cases i with
  | add s0 s1 d2 => exact (binaryOp_sameResult .add addCells s0 s1 d2 s l).finish
  | multiply s0 s1 d2 => exact (binaryOp_sameResult .multiply mulCells s0 s1 d2 s l).finish
  | lessThan s0 s1 d2 => exact (binaryOp_sameResult .lessThan ltCells s0 s1 d2 s l).finish
  | equals s0 s1 d2 => exact (binaryOp_sameResult .equals eqCells s0 s1 d2 s l).finish
  | jumpIfTrue s0 s1 => exact (condJump_sameResult .jumpIfTrue conditionTrue s0 s1 s l).finish
  | jumpIfFalse s0 s1 => exact (condJump_sameResult .jumpIfFalse conditionFalse s0 s1 s l).finish
  | input d0 => exact (SameResult.bind (dstAddr d0 s) fun d => takeInput_sameResult d s l).finish
  | output s0 =>
    exact (SameResult.bind (srcValue s0 s) fun _ => .bind (nextPc .output s) fun _ => .ok _ l).finish
  | adjustRelativeBase s0 =>
    exact (SameResult.bind (srcValue s0 s) fun v => .bind (checkAddr (relativeAddr v s)) fun _ =>
      .bind (nextPc .adjustRelativeBase s) fun _ => .ok _ l).finish
  | halt => exact .next (s.setExec .halted) l

/-- The precondition and the fetch read no record, and the instruction's outcomes are alike. -/
theorem step_sameOutcome (s : State) (l : List Nat) : SameOutcome (step s) (step (s.withWritten l)) := by
  unfold step
  rw [checkRunnable_withWritten, fetchInstr_withWritten]
  cases checkRunnable s with
  | error f => exact .fault f
  | ok _ =>
    cases fetchInstr s with
    | error f => exact .fault f
    | ok i => exact exec_sameOutcome i s l

/-! ### Host commands -/

/-- Two outcomes of a command that differ in the record alone. -/
inductive SamePortOutcome : PortOutcome → PortOutcome → Prop where
  | answered (r : Response) (t : State) (l : List Nat) : SamePortOutcome (.answered r t) (.answered r (t.withWritten l))
  | noResponse (t : State) (l : List Nat) : SamePortOutcome (.noResponse t) (.noResponse (t.withWritten l))
  | refused (r : Refusal) : SamePortOutcome (.refused r) (.refused r)

/-- The loop's steps end alike one after the other, from whatever records they start. -/
theorem runLoop_samePortOutcome (fuel : Nat) : ∀ (s : State) (l : List Nat),
    SamePortOutcome (runLoop fuel s) (runLoop fuel (s.withWritten l)) := by
  induction fuel with
  | zero => exact fun s l => .noResponse s l
  | succ fuel ih =>
    intro s l
    have hstep := step_sameOutcome s l
    unfold runLoop
    generalize step s = o at hstep
    generalize step (s.withWritten l) = o' at hstep
    cases hstep with
    | fault f => exact .answered (.error f) s l
    | next t l' =>
      have hstate : (t.withWritten l').state = t.state := rfl
      dsimp only
      rw [hstate]
      split
      · exact ih t l'
      · exact .answered (.ok (BitVec.ofNat 64 t.state.code)) t l'

theorem hostRun_samePortOutcome (fuel : Nat) (s : State) (l : List Nat) :
    SamePortOutcome (hostRun fuel s) (hostRun fuel (s.withWritten l)) := by
  have hstate : (s.withWritten l).state = s.state := rfl
  unfold hostRun
  rw [hstate]
  split
  · exact .answered (.error .machineHalted) s l
  · exact runLoop_samePortOutcome fuel (s.setExec .running) l

theorem hostStep_samePortOutcome (s : State) (l : List Nat) :
    SamePortOutcome (hostStep s) (hostStep (s.withWritten l)) := by
  have hstep := step_sameOutcome s l
  unfold hostStep
  generalize step s = o at hstep
  generalize step (s.withWritten l) = o' at hstep
  cases hstep with
  | fault f => exact .answered (.error f) s l
  | next t l' => exact .answered (.ok 0) t l'

/-- NEW forgets the record with everything else (spec R231). -/
theorem hostNew_samePortOutcome (image : List Cell) (s : State) (l : List Nat) :
    SamePortOutcome (hostNew image s) (hostNew image (s.withWritten l)) := by
  unfold hostNew
  split
  · exact .refused .imageTooLong
  · cases mcLoad 0 image State.reset with
    | error f => exact .answered (.error f) s l
    | ok t => exact .answered (.ok 0) t t.written

theorem hostInput_samePortOutcome (v : Cell) (s : State) (l : List Nat) :
    SamePortOutcome (hostInput v s) (hostInput v (s.withWritten l)) := by
  have hin : (s.withWritten l).inSlot = s.inSlot := rfl
  unfold hostInput
  rw [hin]
  cases s.inSlot with
  | some w => exact .answered (.error .inputAlreadyPopulated) s l
  | none => exact .answered (.ok 0) (s.setIn (some v)) l

theorem hostOutput_samePortOutcome (s : State) (l : List Nat) :
    SamePortOutcome (hostOutput s) (hostOutput (s.withWritten l)) := by
  have hout : (s.withWritten l).outSlot = s.outSlot := rfl
  unfold hostOutput
  rw [hout]
  cases s.outSlot with
  | none => exact .answered (.error .noOutput) s l
  | some v => exact .answered (.ok v) (s.setOut none) l

theorem hostCommand_samePortOutcome (fuel : Nat) (c : Command) (s : State) (l : List Nat) :
    SamePortOutcome (hostCommand fuel c s) (hostCommand fuel c (s.withWritten l)) := by
  cases c with
  | new image => exact hostNew_samePortOutcome image s l
  | run => exact hostRun_samePortOutcome fuel s l
  | step => exact hostStep_samePortOutcome s l
  | input v => exact hostInput_samePortOutcome v s l
  | output => exact hostOutput_samePortOutcome s l
  | read a =>
    show SamePortOutcome (hostRead a s) (hostRead a (s.withWritten l))
    unfold hostRead
    split
    · exact .answered (.error .negativeAddress) s l
    · exact .answered (.ok (mcRead (addrOfNat a.toNat) s)) s l
  | write a v =>
    show SamePortOutcome (hostWrite a v s) (hostWrite a v (s.withWritten l))
    unfold hostWrite
    split
    · exact .answered (.error .negativeAddress) s l
    · exact .answered (.ok 0) (mcWrite (addrOfNat a.toNat) v s) (insertAddr (addrOfNat a.toNat).toNat l)
  | status sel => exact .answered (.ok (statusData sel s)) s l

/-! ### What the relations say -/

theorem SameOutcome.of_next {t : State} {o : Host.Outcome State Fault Refusal} (h : SameOutcome (.next t) o) :
    ∃ l, o = .next (t.withWritten l) := by
  cases h with
  | next _ l => exact ⟨l, rfl⟩

theorem SameOutcome.of_fault {f : Fault} {o : Host.Outcome State Fault Refusal} (h : SameOutcome (.fault f) o) :
    o = .fault f := by
  cases h with
  | fault _ => rfl

theorem SamePortOutcome.of_answered {r : Response} {t : State} {o : PortOutcome}
    (h : SamePortOutcome (.answered r t) o) : ∃ l, o = .answered r (t.withWritten l) := by
  cases h with
  | answered _ _ l => exact ⟨l, rfl⟩

theorem SamePortOutcome.of_noResponse {t : State} {o : PortOutcome} (h : SamePortOutcome (.noResponse t) o) :
    ∃ l, o = .noResponse (t.withWritten l) := by
  cases h with
  | noResponse _ l => exact ⟨l, rfl⟩

theorem SamePortOutcome.of_refused {r : Refusal} {o : PortOutcome} (h : SamePortOutcome (.refused r) o) :
    o = .refused r := by
  cases h with
  | refused _ => rfl

/-- Settles O15: a step's outcomes and a command's are alike, whatever the records. -/
theorem pagesAreUnobservable : Obligations.PagesAreUnobservable := fun s l =>
  ⟨fun _ h => (h ▸ step_sameOutcome s l).of_next, fun _ h => (h ▸ step_sameOutcome s l).of_fault, fun fuel c =>
    ⟨fun _ _ h => (h ▸ hostCommand_samePortOutcome fuel c s l).of_answered,
      fun _ h => (h ▸ hostCommand_samePortOutcome fuel c s l).of_noResponse,
      fun _ h => (h ▸ hostCommand_samePortOutcome fuel c s l).of_refused⟩⟩

end Sys2Proof.Machine
end

section
/-! SUPPORT. The fetch against the decoder, and operands by mode (spec R120 to R126). -/

namespace Sys2Proof

/-- An instruction is assembled from the literals its opcode has, whatever the others (spec R98). -/
theorem WordFields.assemble_congr {f : WordFields} {raw raw' : Nat → Cell}
    (h : ∀ j < f.op.operandCount, raw j = raw' j) : f.assemble raw = f.assemble raw' := by
  obtain ⟨k, m0, m1, m2⟩ := f
  cases k <;> simp_all [WordFields.assemble, Opcode.operandCount, Opcode.width]

namespace Machine

/-- The cells at pc are the word there and its literals, three at most and none past the top of memory. -/
theorem cellsAtPc_eq_cons (s : State) :
    cellsAtPc s = mcRead s.pc s :: (List.range (min 3 (Config.addrMax - s.pc.toNat))).map (literalAt s) := by
  have hpc := Addr.toNat_le s.pc
  have hcount : min 4 (Config.addrMax + 1 - s.pc.toNat) = min 3 (Config.addrMax - s.pc.toNat) + 1 := by omega
  have hliteral (j : Nat) : s.mem.readAt (s.pc.toNat + (j + 1)) = literalAt s j := by
    rw [literalAt, Nat.add_assoc, Nat.add_comm 1 j]
  unfold cellsAtPc
  rw [hcount, List.range_succ_eq_map, List.map_cons, List.map_map]
  exact congrArg (mcRead s.pc s :: ·) (List.map_congr_left fun j _ => hliteral j)

/-- What the decoder reads from the cells at pc, the fetch gives. -/
theorem fetchInstr_of_decode {s : State} {i : Instr} {rest : List Cell} (h : decode (cellsAtPc s) = .ok (i, rest)) :
    fetchInstr s = .ok i := by
  rw [cellsAtPc_eq_cons] at h
  obtain ⟨f, hf, hlen, rfl, -⟩ := decode_cons_ok_iff.1 h
  rw [List.length_map, List.length_range] at hlen
  have hpc := Addr.toNat_le s.pc
  refine fetchInstr_ok_iff.2 ⟨f, hf, by omega, WordFields.assemble_congr fun j hj => ?_⟩
  rw [List.getD_eq_getElem _ _ (by rw [List.length_map, List.length_range]; omega), List.getElem_map,
    List.getElem_range]

/-- Settles O23: the fetch gives the decoded instruction, and the step runs it. -/
theorem stepRunsTheDecodedInstruction : Obligations.StepRunsTheDecodedInstruction := fun _ _ _ hr h =>
  step_of_fetch hr (fetchInstr_of_decode h)

/-- The fetch of a word that decodes fails where its literals would lie past the top of memory (spec R124). -/
theorem fetchInstr_of_literals_past_top {s : State} {f : WordFields} (h : decodeWord (mcRead s.pc s) = .ok f)
    (htop : Config.addrMax < s.pc.toNat + f.op.operandCount) : fetchInstr s = .error .arithmeticOverflow := by
  unfold fetchInstr
  rw [h]
  exact if_pos htop

/-- Settles O25: the step takes the fetch's error. -/
theorem literalsPastTheTopFault : Obligations.LiteralsPastTheTopFault := fun _ _ hr hf htop =>
  step_of_fetchInstr_error hr (fetchInstr_of_literals_past_top hf htop)

theorem checkAddr_negative {a : Int} (h : a < 0) : checkAddr a = .error .negativeAddress :=
  checkAddr_error_iff.2 (.inl ⟨h, rfl⟩)

theorem checkAddr_past_top {a : Int} (h : Config.addrMax < a) : checkAddr a = .error .arithmeticOverflow :=
  checkAddr_error_iff.2 (.inr ⟨h, rfl⟩)

/-- Settles O26: an operand in memory is read at the address its mode forms, once that is checked. -/
theorem sourceValueByMode : Obligations.SourceValueByMode := fun _ _ =>
  ⟨rfl, fun a ha => srcValue_position_ok_iff.2 ⟨a, ha, rfl⟩,
    fun h => except_bind_error.2 (.inl (checkAddr_negative h)), fun a ha => srcValue_relative_ok_iff.2 ⟨a, ha, rfl⟩,
    fun h => except_bind_error.2 (.inl (checkAddr_negative h)),
    fun h => except_bind_error.2 (.inl (checkAddr_past_top h))⟩

/-- Settles O27: a destination's address is the one its mode forms, once that is checked. -/
theorem destinationAddressByMode : Obligations.DestinationAddressByMode := fun _ _ =>
  ⟨rfl, fun _ ha => dstAddr_ok_iff.2 (.inl ⟨rfl, ha⟩), checkAddr_negative,
    fun _ ha => dstAddr_ok_iff.2 (.inr ⟨rfl, ha⟩), checkAddr_negative, checkAddr_past_top⟩

end Machine

end Sys2Proof
end

section
/-! SUPPORT. The errors of the instructions, in the order of their checks (spec R127 to R131, R149, R190 to R195, R210). -/

namespace Sys2Proof.Machine

/-! ### The shared shapes, check by check -/

/-- A three-operand instruction is the shared operation with a result that fails by ArithmeticOverflow alone. -/
theorem exec_threeOperand {i : Instr} {s0 s1 d2 : Operand} (hi : ThreeOperand i s0 s1 d2) :
    i.opcode.width = 4 ∧ ∃ g : Cell → Cell → Except Fault Cell,
      (∀ a b f, g a b = .error f → f = .arithmeticOverflow) ∧ ∀ s, exec i s = finish (binaryOp i.opcode g s0 s1 d2 s) := by
  obtain rfl | rfl | rfl | rfl := hi
  · exact ⟨rfl, addCells, fun a b f h => (narrow_error_iff.1 h).1, fun _ => rfl⟩
  · exact ⟨rfl, mulCells, fun a b f h => (narrow_error_iff.1 h).1, fun _ => rfl⟩
  · exact ⟨rfl, ltCells, nofun, fun _ => rfl⟩
  · exact ⟨rfl, eqCells, nofun, fun _ => rfl⟩

/-- A jump is the shared operation with its own predicate. -/
theorem exec_jump {i : Instr} {s0 s1 : Operand} (hi : i = .jumpIfTrue s0 s1 ∨ i = .jumpIfFalse s0 s1) :
    ∃ taken, ∀ s, exec i s = finish (condJump i.opcode taken s0 s1 s) := by
  obtain rfl | rfl := hi
  · exact ⟨conditionTrue, fun _ => rfl⟩
  · exact ⟨conditionFalse, fun _ => rfl⟩

section
variable {k : Opcode} {g : Cell → Cell → Except Fault Cell} {taken : Cell → Bool} {s0 s1 d2 : Operand} {s : State}
  {a b : Cell} {d : Addr} {f : Fault}

theorem binaryOp_source0_error (h : srcValue s0 s = .error f) : binaryOp k g s0 s1 d2 s = .error f :=
  except_bind_error.2 (.inl h)

theorem binaryOp_source1_error (ha : srcValue s0 s = .ok a) (h : srcValue s1 s = .error f) :
    binaryOp k g s0 s1 d2 s = .error f :=
  except_bind_error.2 (.inr ⟨a, ha, except_bind_error.2 (.inl h)⟩)

theorem binaryOp_dest_error (ha : srcValue s0 s = .ok a) (hb : srcValue s1 s = .ok b) (h : dstAddr d2 s = .error f) :
    binaryOp k g s0 s1 d2 s = .error f :=
  except_bind_error.2 (.inr ⟨a, ha, except_bind_error.2 (.inr ⟨b, hb, except_bind_error.2 (.inl h)⟩)⟩)

/-- Past its operands, a three-operand instruction fails with its result's error. -/
theorem binaryOp_result_error (ha : srcValue s0 s = .ok a) (hb : srcValue s1 s = .ok b) (hd : dstAddr d2 s = .ok d)
    (h : g a b = .error f) : binaryOp k g s0 s1 d2 s = .error f :=
  except_bind_error.2 (.inr ⟨a, ha, except_bind_error.2 (.inr ⟨b, hb, except_bind_error.2 (.inr ⟨d, hd,
    except_bind_error.2 (.inl h)⟩)⟩)⟩)

/-- With its result there, a three-operand instruction fails with the advance's error. -/
theorem binaryOp_advance_error {r : Cell} (ha : srcValue s0 s = .ok a) (hb : srcValue s1 s = .ok b)
    (hd : dstAddr d2 s = .ok d) (hr : g a b = .ok r) (h : nextPc k s = .error f) :
    binaryOp k g s0 s1 d2 s = .error f :=
  except_bind_error.2 (.inr ⟨a, ha, except_bind_error.2 (.inr ⟨b, hb, except_bind_error.2 (.inr ⟨d, hd,
    except_bind_error.2 (.inr ⟨r, hr, except_bind_error.2 (.inl h)⟩)⟩)⟩)⟩)

theorem condJump_source0_error (h : srcValue s0 s = .error f) : condJump k taken s0 s1 s = .error f :=
  except_bind_error.2 (.inl h)

theorem condJump_source1_error (ha : srcValue s0 s = .ok a) (h : srcValue s1 s = .error f) :
    condJump k taken s0 s1 s = .error f :=
  except_bind_error.2 (.inr ⟨a, ha, except_bind_error.2 (.inl h)⟩)

/-- Past its operands, a taken jump fails with its target's error. -/
theorem condJump_target_error (ha : srcValue s0 s = .ok a) (hb : srcValue s1 s = .ok b) (htaken : taken a = true)
    (h : checkAddr b.toInt = .error f) : condJump k taken s0 s1 s = .error f := by
  refine except_bind_error.2 (.inr ⟨a, ha, except_bind_error.2 (.inr ⟨b, hb, ?_⟩)⟩)
  rw [if_pos htaken]
  exact except_bind_error.2 (.inl h)

/-- Past its operands, a jump that is not taken fails with the advance's error. -/
theorem condJump_advance_error (ha : srcValue s0 s = .ok a) (hb : srcValue s1 s = .ok b) (htaken : taken a = false)
    (h : nextPc k s = .error f) : condJump k taken s0 s1 s = .error f := by
  refine except_bind_error.2 (.inr ⟨a, ha, except_bind_error.2 (.inr ⟨b, hb, ?_⟩)⟩)
  rw [htaken]
  exact except_bind_error.2 (.inl h)

end

/-! ### The instructions of one operand -/

theorem exec_output_source_error {s0 : Operand} {s : State} {f : Fault} (h : srcValue s0 s = .error f) :
    exec (.output s0) s = .fault f :=
  finish_fault_iff.2 (except_bind_error.2 (.inl h))

theorem exec_adjustRelativeBase_source_error {s0 : Operand} {s : State} {f : Fault} (h : srcValue s0 s = .error f) :
    exec (.adjustRelativeBase s0) s = .fault f :=
  finish_fault_iff.2 (except_bind_error.2 (.inl h))

theorem exec_input_dest_error {d0 : Operand} {s : State} {f : Fault} (h : dstAddr d0 s = .error f) :
    exec (.input d0) s = .fault f :=
  finish_fault_iff.2 (except_bind_error.2 (.inl h))

/-- Output's advance is checked once its value is known. -/
theorem exec_output_advance_error {s0 : Operand} {s : State} {v : Cell} {f : Fault} (hv : srcValue s0 s = .ok v)
    (h : nextPc .output s = .error f) : exec (.output s0) s = .fault f :=
  finish_fault_iff.2 (except_bind_error.2 (.inr ⟨v, hv, except_bind_error.2 (.inl h)⟩))

/-- Input's advance is checked when a value is pending. -/
theorem exec_input_advance_error {d0 : Operand} {s : State} {d : Addr} {v : Cell} {f : Fault} (hd : dstAddr d0 s = .ok d)
    (hin : s.inSlot = some v) (h : nextPc .input s = .error f) : exec (.input d0) s = .fault f := by
  refine finish_fault_iff.2 (except_bind_error.2 (.inr ⟨d, hd, ?_⟩))
  unfold takeInput
  rw [hin]
  exact except_bind_error.2 (.inl h)

/-- The new base is checked once the operand's value is known. -/
theorem exec_adjustRelativeBase_base_error {s0 : Operand} {s : State} {v : Cell} {f : Fault} (hv : srcValue s0 s = .ok v)
    (h : checkAddr (relativeAddr v s) = .error f) : exec (.adjustRelativeBase s0) s = .fault f :=
  finish_fault_iff.2 (except_bind_error.2 (.inr ⟨v, hv, except_bind_error.2 (.inl h)⟩))

/-- AdjustRelativeBase's advance is checked after the new base. -/
theorem exec_adjustRelativeBase_advance_error {s0 : Operand} {s : State} {v : Cell} {b : Addr} {f : Fault}
    (hv : srcValue s0 s = .ok v) (hb : checkAddr (relativeAddr v s) = .ok b)
    (h : nextPc .adjustRelativeBase s = .error f) : exec (.adjustRelativeBase s0) s = .fault f :=
  finish_fault_iff.2 (except_bind_error.2 (.inr ⟨v, hv, except_bind_error.2 (.inr ⟨b, hb,
    except_bind_error.2 (.inl h)⟩)⟩))

/-! ### The predicates of the jumps -/

theorem conditionTrue_of_ne {c : Cell} (h : c.toInt ≠ 0) : conditionTrue c = true := decide_eq_true h

theorem conditionTrue_of_eq {c : Cell} (h : c.toInt = 0) : conditionTrue c = false := decide_eq_false (not_not_intro h)

theorem conditionFalse_of_eq {c : Cell} (h : c.toInt = 0) : conditionFalse c = true := decide_eq_true h

theorem conditionFalse_of_ne {c : Cell} (h : c.toInt ≠ 0) : conditionFalse c = false := decide_eq_false h

/-! ### The statements -/

/-- Settles O28: each shape checks its operands in their order, before anything else. -/
theorem operandErrorsComeInIndexOrder : Obligations.OperandErrorsComeInIndexOrder := by
  refine ⟨fun i s0 s1 d2 s f hi => ?threeOperands, fun i s0 s1 s f hi => ?jump, fun i s0 s f hi h => ?oneSource,
    fun d0 s f => exec_input_dest_error⟩
  case threeOperands =>
    obtain ⟨-, g, -, hexec⟩ := exec_threeOperand hi
    rw [hexec]
    exact ⟨fun h => finish_fault_iff.2 (binaryOp_source0_error h),
      fun a ha h => finish_fault_iff.2 (binaryOp_source1_error ha h),
      fun a b ha hb h => finish_fault_iff.2 (binaryOp_dest_error ha hb h)⟩
  case jump =>
    obtain ⟨taken, hexec⟩ := exec_jump hi
    rw [hexec]
    exact ⟨fun h => finish_fault_iff.2 (condJump_source0_error h),
      fun c hc h => finish_fault_iff.2 (condJump_source1_error hc h)⟩
  case oneSource =>
    obtain rfl | rfl := hi
    · exact exec_output_source_error h
    · exact exec_adjustRelativeBase_source_error h

theorem nextPc_past_top {k : Opcode} {s : State} (h : Config.addrMax < s.pc.toNat + k.width) :
    nextPc k s = .error .arithmeticOverflow :=
  nextPc_error_iff.2 ⟨h, rfl⟩

/-- Settles O29: past the other checks, the advance fails; a result or a base that fails without being below 0 raises
ArithmeticOverflow too. -/
theorem advancePastTheTopFaults : Obligations.AdvancePastTheTopFaults := by
  refine ⟨fun i s0 s1 d2 s a b d hi ha hb hd htop => ?threeOperands,
    fun s0 s1 s c t hc ht htop => ⟨?jumpIfTrue, ?jumpIfFalse⟩,
    fun s0 s v hv htop => exec_output_advance_error hv (nextPc_past_top htop), fun s0 s v hv hbase htop => ?adjust,
    fun d0 s d v hd hin htop => exec_input_advance_error hd hin (nextPc_past_top htop)⟩
  case threeOperands =>
    obtain ⟨hwidth, g, hg, hexec⟩ := exec_threeOperand hi
    rw [hexec, finish_fault_iff]
    cases hr : g a b with
    | error f => exact binaryOp_result_error ha hb hd (hg a b f hr ▸ hr)
    | ok r => exact binaryOp_advance_error ha hb hd hr (nextPc_past_top (hwidth ▸ htop))
  case jumpIfTrue =>
    exact fun h => finish_fault_iff.2 (condJump_advance_error hc ht (conditionTrue_of_eq h) (nextPc_past_top htop))
  case jumpIfFalse =>
    exact fun h => finish_fault_iff.2 (condJump_advance_error hc ht (conditionFalse_of_ne h) (nextPc_past_top htop))
  case adjust =>
    cases hb : checkAddr (relativeAddr v s) with
    | ok b => exact exec_adjustRelativeBase_advance_error hv hb (nextPc_past_top htop)
    | error f =>
      obtain ⟨hneg, -⟩ | ⟨-, rfl⟩ := checkAddr_error_iff.1 hb
      · exact absurd hneg hbase.not_gt
      · exact exec_adjustRelativeBase_base_error hv hb

/-- Settles O34: a result out of range is not narrowed. -/
theorem resultsOutsideTheCellRangeFault : Obligations.ResultsOutsideTheCellRangeFault := fun _ _ _ _ _ _ _ ha hb hd =>
  ⟨fun h => finish_fault_iff.2 (binaryOp_result_error ha hb hd (narrow_error_iff.2 ⟨rfl, h⟩)),
    fun h => finish_fault_iff.2 (binaryOp_result_error ha hb hd (narrow_error_iff.2 ⟨rfl, h⟩))⟩

/-- Settles O42: a taken jump checks its target's value. -/
theorem takenJumpToANegativeTargetFaults : Obligations.TakenJumpToANegativeTargetFaults := fun _ _ _ _ _ hc hv hneg =>
  ⟨fun h => finish_fault_iff.2 (condJump_target_error hc hv (conditionTrue_of_ne h) (checkAddr_negative hneg)),
    fun h => finish_fault_iff.2 (condJump_target_error hc hv (conditionFalse_of_eq h) (checkAddr_negative hneg))⟩

/-- Settles O44: the new base is checked as an address is. -/
theorem baseOutsideTheAddressRangeFaults : Obligations.BaseOutsideTheAddressRangeFaults := fun _ _ _ hv =>
  ⟨fun h => exec_adjustRelativeBase_base_error hv (checkAddr_negative h),
    fun h => exec_adjustRelativeBase_base_error hv (checkAddr_past_top h)⟩

end Sys2Proof.Machine
end

section
/-! SUPPORT. What each instruction completes with and its frame (spec R150 to R156, R170, R175, R190, R192, R210, R215). -/

namespace Sys2Proof.Machine

/-! ### The shared facts -/

/-- Where the advance stays within memory, it answers. -/
theorem nextPc_of_le {k : Opcode} {s : State} (h : s.pc.toNat + k.width ≤ Config.addrMax) :
    ∃ p, nextPc k s = .ok p ∧ p.toNat = s.pc.toNat + k.width :=
  ⟨addrOfNat (s.pc.toNat + k.width), nextPc_ok_iff.2 (addrOfNat_toNat h), addrOfNat_toNat h⟩

/-- Every cell that is not negative holds an address. -/
theorem addr_of_nonneg {v : Cell} (h : 0 ≤ v.toInt) : ∃ p : Addr, (p.toNat : Int) = v.toInt :=
  addr_exists h (toInt_bounds v).2

theorem memorySameBut_mcWrite (d : Addr) (r : Cell) (s : State) : MemorySameBut d s (mcWrite d r s) :=
  fun _ ha => mcRead_mcWrite_other ha r s

theorem pagesWith_mcWrite (d : Addr) (r : Cell) (s : State) : PagesWith d s (mcWrite d r s) :=
  mcWrite_pageAllocated d r s

/-- A store and an advance are all that a three-operand instruction does. -/
theorem storedAndAdvanced {d p : Addr} {width : Nat} {s : State} (r : Cell) (hp : p.toNat = s.pc.toNat + width) :
    StoredAndAdvanced d r width s ((mcWrite d r s).setPc p) :=
  ⟨mcRead_mcWrite_same d r s, memorySameBut_mcWrite d r s, pagesWith_mcWrite d r s, hp, rfl, rfl, rfl, rfl⟩

theorem onlyPcChanged_setPc (s : State) (p : Addr) : OnlyPcChanged s (s.setPc p) :=
  ⟨fun _ => rfl, fun _ => Iff.rfl, rfl, rfl, rfl, rfl⟩

theorem truthCell_toInt_of_true {p : Prop} [Decidable p] (h : p) : (truthCell (decide p)).toInt = 1 := by
  rw [decide_eq_true h]
  rfl

theorem truthCell_toInt_of_false {p : Prop} [Decidable p] (h : ¬ p) : (truthCell (decide p)).toInt = 0 := by
  rw [decide_eq_false h]
  rfl

/-! ### Three operands -/

/-- Settles O30: the sum is in range, so a cell holds it. -/
theorem addStoresTheExactSum : Obligations.AddStoresTheExactSum := by
  intro s0 s1 d2 s a b d ha hb hd hmin hmax hpc
  obtain ⟨r, hr⟩ := cell_exists hmin hmax
  obtain ⟨p, hp, hp'⟩ := nextPc_of_le (k := .add) hpc
  exact ⟨r, _, exec_add_next_iff.2 ⟨a, b, d, r, p, ha, hb, hd, hr, hp, rfl⟩, hr, storedAndAdvanced r hp'⟩

/-- Settles O31: the product is in range, so a cell holds it. -/
theorem multiplyStoresTheExactProduct : Obligations.MultiplyStoresTheExactProduct := by
  intro s0 s1 d2 s a b d ha hb hd hmin hmax hpc
  obtain ⟨r, hr⟩ := cell_exists hmin hmax
  obtain ⟨p, hp, hp'⟩ := nextPc_of_le (k := .multiply) hpc
  exact ⟨r, _, exec_multiply_next_iff.2 ⟨a, b, d, r, p, ha, hb, hd, hr, hp, rfl⟩, hr, storedAndAdvanced r hp'⟩

/-- Settles O32: the comparison's result is always a cell. -/
theorem lessThanStoresItsTruthValue : Obligations.LessThanStoresItsTruthValue := by
  intro s0 s1 d2 s a b d ha hb hd hpc
  obtain ⟨p, hp, hp'⟩ := nextPc_of_le (k := .lessThan) hpc
  exact ⟨_, _, exec_lessThan_next_iff.2 ⟨a, b, d, _, p, ha, hb, hd, rfl, hp, rfl⟩, truthCell_toInt_of_true,
    fun h => truthCell_toInt_of_false h.not_gt, storedAndAdvanced _ hp'⟩

/-- Settles O33: the comparison's result is always a cell. -/
theorem equalsStoresItsTruthValue : Obligations.EqualsStoresItsTruthValue := by
  intro s0 s1 d2 s a b d ha hb hd hpc
  obtain ⟨p, hp, hp'⟩ := nextPc_of_le (k := .equals) hpc
  exact ⟨_, _, exec_equals_next_iff.2 ⟨a, b, d, _, p, ha, hb, hd, rfl, hp, rfl⟩, truthCell_toInt_of_true,
    truthCell_toInt_of_false, storedAndAdvanced _ hp'⟩

/-- Settles O35: what the shared operation of the four stores and leaves. -/
theorem threeOperandFrame : Obligations.ThreeOperandFrame := by
  intro i s0 s1 d2 s t hi h
  obtain ⟨-, g, -, hexec⟩ := exec_threeOperand hi
  obtain ⟨a, b, d, r, p, -, -, hd, -, -, rfl⟩ := binaryOp_ok_iff.1 (finish_next_iff.1 ((hexec s).symm.trans h))
  exact ⟨d, hd, memorySameBut_mcWrite d r s, pagesWith_mcWrite d r s, rfl, rfl, rfl, rfl⟩

/-! ### Input and output -/

/-- Settles O36: with a value pending, the store and the advance are all that is left. -/
theorem inputTakesThePendingValue : Obligations.InputTakesThePendingValue := by
  intro d0 s d v hd hin hpc
  obtain ⟨p, hp, hp'⟩ := nextPc_of_le (k := .input) hpc
  exact ⟨_, exec_input_next_iff.2 ⟨d, hd, .inr ⟨v, p, hin, hp, rfl⟩⟩, mcRead_mcWrite_same d v s,
    memorySameBut_mcWrite d v s, pagesWith_mcWrite d v s, rfl, hp', rfl, rfl, rfl⟩

/-- Settles O37: with no value pending, Input checks nothing past its destination. -/
theorem inputBlocksOnAnEmptySlot : Obligations.InputBlocksOnAnEmptySlot := fun _ _ d hd hin =>
  ⟨_, exec_input_next_iff.2 ⟨d, hd, .inl ⟨hin, rfl⟩⟩, rfl, rfl, fun _ => rfl, fun _ => Iff.rfl, rfl, rfl, rfl⟩

/-- Settles O38: Input blocks with no store, or stores at its destination. -/
theorem inputFrame : Obligations.InputFrame := by
  intro d0 s t h
  obtain ⟨d, hd, ⟨hin, rfl⟩ | ⟨v, p, hin, -, rfl⟩⟩ := exec_input_next_iff.1 h
  · exact ⟨d, hd, fun _ _ => rfl, fun _ => ⟨fun _ => rfl, fun _ => Iff.rfl⟩, absurd hin, rfl, rfl⟩
  · exact ⟨d, hd, memorySameBut_mcWrite d v s, fun hnone => absurd (hin.symm.trans hnone) (Option.some_ne_none v),
      fun _ => pagesWith_mcWrite d v s, rfl, rfl⟩

/-- Settles O39: the slot's former value takes no part. -/
theorem outputFillsTheSlotAndBlocks : Obligations.OutputFillsTheSlotAndBlocks := by
  intro s0 s v hv hpc
  obtain ⟨p, hp, hp'⟩ := nextPc_of_le (k := .output) hpc
  exact ⟨_, exec_output_next_iff.2 ⟨v, p, hv, hp, rfl⟩, rfl, rfl, hp', fun _ => rfl, fun _ => Iff.rfl, rfl, rfl⟩

/-! ### Jumps -/

section
variable {k : Opcode} {taken : Cell → Bool} {s0 s1 : Operand} {s : State} {c v : Cell}

/-- A taken jump goes to its target's value and changes nothing else. -/
theorem condJump_taken (hc : srcValue s0 s = .ok c) (hv : srcValue s1 s = .ok v) (htaken : taken c = true)
    (hpos : 0 ≤ v.toInt) :
    ∃ t, finish (condJump k taken s0 s1 s) = .next t ∧ (t.pc.toNat : Int) = v.toInt ∧ OnlyPcChanged s t := by
  obtain ⟨p, hp⟩ := addr_of_nonneg hpos
  refine ⟨s.setPc p, finish_next_iff.2 (condJump_ok_iff.2 ⟨c, v, p, hc, hv, ?_, rfl⟩), hp, onlyPcChanged_setPc s p⟩
  rw [if_pos htaken]
  exact checkAddr_ok_iff.2 hp

/-- A jump that is not taken advances and changes nothing else, whatever its target's value. -/
theorem condJump_not_taken (hc : srcValue s0 s = .ok c) (hv : srcValue s1 s = .ok v) (htaken : taken c = false)
    (hpc : s.pc.toNat + k.width ≤ Config.addrMax) :
    ∃ t, finish (condJump k taken s0 s1 s) = .next t ∧ t.pc.toNat = s.pc.toNat + k.width ∧ OnlyPcChanged s t := by
  obtain ⟨p, hp, hp'⟩ := nextPc_of_le hpc
  refine ⟨s.setPc p, finish_next_iff.2 (condJump_ok_iff.2 ⟨c, v, p, hc, hv, ?_, rfl⟩), hp', onlyPcChanged_setPc s p⟩
  rw [htaken]
  exact hp

end

/-- Settles O40: the two ends of a jump whose condition is any value but 0. -/
theorem jumpIfTrueJumpsOnNonZero : Obligations.JumpIfTrueJumpsOnNonZero := fun _ _ _ _ _ hc hv =>
  ⟨fun h hpos => condJump_taken hc hv (conditionTrue_of_ne h) hpos,
    fun h hpc => condJump_not_taken hc hv (conditionTrue_of_eq h) hpc⟩

/-- Settles O41: the two ends of a jump whose condition is 0 alone. -/
theorem jumpIfFalseJumpsOnZero : Obligations.JumpIfFalseJumpsOnZero := fun _ _ _ _ _ hc hv =>
  ⟨fun h hpos => condJump_taken hc hv (conditionFalse_of_eq h) hpos,
    fun h hpc => condJump_not_taken hc hv (conditionFalse_of_ne h) hpc⟩

/-! ### Relative base, halt, and the frames of what stores nothing -/

/-- Settles O43: the new base is in range, so it is an address. -/
theorem adjustMovesTheBaseByItsOperand : Obligations.AdjustMovesTheBaseByItsOperand := by
  intro s0 s v hv hlow hhigh hpc
  obtain ⟨b, hb⟩ := addr_exists hlow hhigh
  obtain ⟨p, hp, hp'⟩ := nextPc_of_le (k := .adjustRelativeBase) hpc
  exact ⟨_, exec_adjustRelativeBase_next_iff.2 ⟨v, b, p, hv, hb, hp, rfl⟩, hb, hp', fun _ => rfl, fun _ => Iff.rfl, rfl,
    rfl, rfl⟩

/-- Settles O45: by what each of the five does when it answers. -/
theorem storelessInstructionFrames : Obligations.StorelessInstructionFrames := by
  refine ⟨fun s0 s t h => ?output, fun i s0 s1 s t hi h => ?jump, fun s0 s t h => ?adjust, fun s t h => ?halt⟩
  case output =>
    obtain ⟨_, _, -, -, rfl⟩ := exec_output_next_iff.1 h
    exact ⟨fun _ => rfl, fun _ => Iff.rfl, rfl, rfl⟩
  case jump =>
    obtain ⟨taken, hexec⟩ := exec_jump hi
    obtain ⟨_, _, p, -, -, -, rfl⟩ := condJump_ok_iff.1 (finish_next_iff.1 ((hexec s).symm.trans h))
    exact onlyPcChanged_setPc s p
  case adjust =>
    obtain ⟨_, _, _, -, -, -, rfl⟩ := exec_adjustRelativeBase_next_iff.1 h
    exact ⟨fun _ => rfl, fun _ => Iff.rfl, rfl, rfl, rfl⟩
  case halt =>
    obtain rfl := exec_halt_next_iff.1 h
    exact ⟨fun _ => rfl, fun _ => Iff.rfl, rfl, rfl, rfl, rfl⟩

/-- Settles O46: Halt has no check. -/
theorem haltStopsWhereItStands : Obligations.HaltStopsWhereItStands := fun _ =>
  ⟨_, exec_halt_next_iff.2 rfl, rfl, rfl, fun _ => rfl, fun _ => Iff.rfl, rfl, rfl, rfl⟩

end Sys2Proof.Machine
end

section
/-! SUPPORT. RUN and its loop (spec R135 to R139, R173, R244, R300). -/

namespace Sys2Proof.Machine

/-- The loop answers OK exactly when running steps lead to a step that leaves Running. -/
theorem runLoop_ok_iff {s t : State} {d : Cell} : (∃ fuel, runLoop fuel s = .answered (.ok d) t) ↔
    ∃ n u, RunningSteps n s u ∧ step u = .next t ∧ t.state ≠ .running ∧ d = BitVec.ofNat 64 t.state.code := by
  constructor
  · rintro ⟨fuel, h⟩
    obtain ⟨n, u, hsteps, ⟨hnext, hleft, hd⟩ | ⟨f, -, hf, -⟩⟩ := runLoop_answered h
    · exact ⟨n, u, hsteps, hnext, hleft, Response.ok.inj hd⟩
    · cases hf
  · rintro ⟨n, u, hsteps, hnext, hleft, rfl⟩
    exact ⟨n + 1, runLoop_of_next hsteps hnext hleft⟩

/-- The loop answers an error exactly when running steps lead to a step that fails. -/
theorem runLoop_error_iff {s t : State} {f : Fault} : (∃ fuel, runLoop fuel s = .answered (.error f) t) ↔
    ∃ n, RunningSteps n s t ∧ step t = .fault f := by
  constructor
  · rintro ⟨fuel, h⟩
    obtain ⟨n, u, hsteps, ⟨-, -, hd⟩ | ⟨g, hfault, hg, rfl⟩⟩ := runLoop_answered h
    · cases hd
    · exact ⟨n, hsteps, Response.error.inj hg ▸ hfault⟩
  · rintro ⟨n, hsteps, hfault⟩
    exact ⟨n + 1, runLoop_of_fault hsteps hfault⟩

/-- The loop never answers exactly when running steps go on for ever. -/
theorem runLoop_silent_iff {s : State} : (∀ fuel, ∃ t, runLoop fuel s = .noResponse t) ↔ ∀ n, ∃ u, RunningSteps n s u :=
  forall_congr' fun _ => exists_congr fun _ => ⟨runLoop_noResponse, runLoop_of_steps⟩

/-- Settles O48: RUN is its loop from Running, whose three ends the lemmas above characterise. -/
theorem runIsTheStepLoop : Obligations.RunIsTheStepLoop := by
  refine fun s => ⟨hostRun_of_halted, fun hs => ?loop⟩
  case loop =>
    have hrun (fuel : Nat) : hostCommand fuel .run s = runLoop fuel (s.setExec .running) :=
      hostRun_of_not_halted hs fuel
    simp only [hrun]
    exact ⟨fun _ _ => runLoop_ok_iff, fun _ _ => runLoop_error_iff, runLoop_silent_iff⟩

/-- A loop that has answered answers the same with more steps allowed. -/
theorem runLoop_answered_add {fuel : Nat} {s t : State} {r : Response} (more : Nat)
    (h : runLoop fuel s = .answered r t) : runLoop (fuel + more) s = .answered r t := by
  induction fuel generalizing s with
  | zero => cases h
  | succ fuel ih =>
    rw [Nat.add_right_comm]
    unfold runLoop at h ⊢
    cases hstep : step s with
    | fault f => rwa [hstep] at h
    | refused r => exact absurd hstep (step_not_refused s r)
    | next u =>
      rw [hstep] at h
      dsimp only at h ⊢
      by_cases hu : u.state = .running
      · rw [if_pos hu] at h ⊢
        exact ih h
      · rwa [if_neg hu] at h ⊢

theorem hostRun_answered_add {fuel : Nat} {s t : State} {r : Response} (more : Nat)
    (h : hostRun fuel s = .answered r t) : hostRun (fuel + more) s = .answered r t :=
  hostRun_answered_iff.2 ((hostRun_answered_iff.1 h).imp_right (And.imp_right (runLoop_answered_add more)))

/-- The loop's outcome settles the port, whatever the port was: the loop is never refused. -/
theorem settle_runLoop (p q : PortState) (fuel : Nat) (s : State) :
    p.settle (runLoop fuel s) = q.settle (runLoop fuel s) := by
  cases h : runLoop fuel s with
  | answered r t => rfl
  | noResponse t => rfl
  | refused r => exact absurd h (runLoop_not_refused fuel s r)

/-- A RUN that has not answered is in progress, and goes on as if its steps had been allowed at once (spec R139). -/
theorem portEvent_run_in_progress {fuel : Nat} {s t : State} (more : Nat) (h : hostCommand fuel .run s = .noResponse t) :
    portEvent (.command .run fuel) (.ready s) = (.silence, .running t) ∧
      portEvent (.goOn more) (.running t) = portEvent (.command .run (fuel + more)) (.ready s) := by
  obtain ⟨-, hs, hloop⟩ := hostCommand_noResponse h
  refine ⟨congrArg (PortState.settle (.ready s)) h, ?_⟩
  calc portEvent (.goOn more) (.running t)
      = PortState.settle (.ready s) (runLoop more t) := settle_runLoop _ _ more t
    _ = PortState.settle (.ready s) (hostRun (fuel + more) s) := by
      rw [hostRun_of_not_halted hs, runLoop_add more hloop]

/-- What makes the port ready while a RUN is in progress: reset, or the RUN's own answer. -/
theorem portEvent_running_ready {t s : State} {e : PortEvent} {r : PortReply}
    (h : portEvent e (.running t) = (r, .ready s)) :
    e = .reset ∧ r = .silence ∧ s = State.reset ∨
      ∃ n a, e = .goOn n ∧ r = .response a ∧ runLoop n t = .answered a s := by
  cases e with
  | command c fuel => cases h
  | reset =>
    cases h
    exact .inl ⟨rfl, rfl, rfl⟩
  | goOn fuel =>
    change PortState.settle _ (runLoop fuel t) = _ at h
    cases hloop : runLoop fuel t with
    | answered a u =>
      rw [hloop] at h
      cases h
      exact .inr ⟨fuel, a, rfl, rfl, hloop⟩
    | noResponse u =>
      rw [hloop] at h
      cases h
    | refused k => exact absurd hloop (runLoop_not_refused fuel t k)

/-- Settles O49: the loop's answer stands, a loop in progress goes on, and a port with a RUN in progress accepts
nothing. -/
theorem runAnswersDoNotDependOnFuel : Obligations.RunAnswersDoNotDependOnFuel :=
  ⟨fun _ _ more _ _ => hostRun_answered_add more, fun _ _ more _ => portEvent_run_in_progress more, fun _ _ _ => rfl,
    fun _ _ _ _ => portEvent_running_ready, fun _ => rfl⟩

/-- A step leaves the execution state, or ends in Blocked or Halted (spec R36). -/
theorem step_next_state {s t : State} (h : step s = .next t) :
    t.state = s.state ∨ t.state = .blocked ∨ t.state = .halted := by
  obtain ⟨-, i, -, hexec⟩ := step_next_iff.1 h
  cases exec_next_effect hexec with
  | blocked | emitted => exact .inr (.inl rfl)
  | halted => exact .inr (.inr rfl)
  | stored | taken | jumped | adjusted => exact .inl rfl

/-- Settles O50: the loop's steps are taken in Running, which a step leaves for Blocked or Halted alone. -/
theorem runEndsBlockedHaltedOrRunning : Obligations.RunEndsBlockedHaltedOrRunning := by
  refine fun s fuel t => ⟨fun d h => ?ok, fun f hs h => ?error⟩
  case ok =>
    obtain ⟨-, hr, -⟩ | ⟨-, hloop⟩ := hostRun_answered_iff.1 h
    · cases hr
    obtain ⟨n, u, hsteps, hnext, hleft, rfl⟩ := runLoop_ok_iff.1 ⟨fuel, hloop⟩
    have hu : u.state = .running := hsteps.state_running rfl
    obtain hstate | hstate | hstate := step_next_state hnext
    · exact absurd (hstate.trans hu) hleft
    · exact .inl ⟨hstate, by rw [hstate]; rfl⟩
    · exact .inr ⟨hstate, by rw [hstate]; rfl⟩
  case error =>
    obtain ⟨hhalted, -, -⟩ | ⟨-, hloop⟩ := hostRun_answered_iff.1 h
    · exact absurd hhalted hs
    obtain ⟨n, hsteps, -⟩ := runLoop_error_iff.1 ⟨fuel, hloop⟩
    exact hsteps.state_running rfl

/-- Settles O51: the one step in Running is the Input's, which finds the slot empty and blocks. -/
theorem runWithoutInputBlocksAgain : Obligations.RunWithoutInputBlocksAgain := by
  intro s fuel d0 d hs hin hfetch hd
  have hback : (s.setExec .running).setExec .blocked = s := by rw [← hs]; rfl
  have hexec : exec (.input d0) (s.setExec .running) = .next s := exec_input_next_iff.2 ⟨d, hd, .inl ⟨hin, hback⟩⟩
  have hstep : step (s.setExec .running) = .next s := step_next_iff.2 ⟨.inr rfl, .input d0, hfetch, hexec⟩
  have hblocked : s.state ≠ .running := by simp [hs]
  calc hostRun (fuel + 1) s
      = runLoop (fuel + 1) (s.setExec .running) := hostRun_of_not_halted (by simp [hs]) _
    _ = .answered (.ok (BitVec.ofNat 64 s.state.code)) s := by simp only [runLoop, hstep, if_neg hblocked]
    _ = .answered (.ok 2) s := by rw [hs]; rfl

/-- A cell of an address holds its number (spec R241). -/
theorem cellOfAddr_toNat (a : Addr) : (cellOfAddr a).toNat = a.toNat := by
  have := a.isLt
  rw [cellOfAddr, BitVec.toNat_ofNat]
  exact Nat.mod_eq_of_lt (by omega)

theorem cellOfAddr_toInt (a : Addr) : (cellOfAddr a).toInt = a.toNat := by
  have := a.isLt
  rw [BitVec.toInt_eq_toNat_cond, cellOfAddr_toNat, if_pos (by omega)]

/-- A state that steps to itself in Running keeps the loop from answering. -/
theorem runLoop_of_step_self {s : State} (h : step s = .next s) (hs : s.state = .running) :
    ∀ fuel, runLoop fuel s = .noResponse s
  | 0 => rfl
  | fuel + 1 => by simp only [runLoop, h, if_pos hs, runLoop_of_step_self h hs fuel]

/-- The word 1105 with literals 1 and pc is fetched as a jump to pc. -/
theorem fetchInstr_self_jump {s : State} (hpc : s.pc.toNat + 2 ≤ Config.addrMax) (hword : mcRead s.pc s = 1105)
    (h0 : literalAt s 0 = 1) (h1 : literalAt s 1 = cellOfAddr s.pc) :
    fetchInstr s = .ok (.jumpIfTrue ⟨.immediate, 1⟩ ⟨.immediate, cellOfAddr s.pc⟩) := by
  refine fetchInstr_ok_iff.2 ⟨⟨.jumpIfTrue, .immediate, .immediate, .position⟩, ?_, hpc, ?_⟩
  · rw [hword]
    exact decodeWord_encodeWord .jumpIfTrue .immediate .immediate .position
  · rw [← h0, ← h1]
    rfl

/-- Settles O52: the jump's step leads back to the state it starts in. -/
theorem selfJumpNeverResponds : Obligations.SelfJumpNeverResponds := by
  intro s hs hpc hword h0 h1 fuel
  have htarget : checkAddr (cellOfAddr s.pc).toInt = .ok s.pc := checkAddr_ok_iff.2 (cellOfAddr_toInt s.pc).symm
  have hexec : exec (.jumpIfTrue ⟨.immediate, 1⟩ ⟨.immediate, cellOfAddr s.pc⟩) (s.setExec .running) =
      .next (s.setExec .running) :=
    exec_jumpIfTrue_next_iff.2 ⟨1, cellOfAddr s.pc, s.pc, rfl, rfl, htarget, rfl⟩
  have hstep : step (s.setExec .running) = .next (s.setExec .running) :=
    step_next_iff.2 ⟨.inr rfl, _, fetchInstr_self_jump hpc hword h0 h1, hexec⟩
  exact ⟨_, (hostRun_of_not_halted hs fuel).trans (runLoop_of_step_self hstep rfl fuel)⟩

end Sys2Proof.Machine
end

section
/-! SUPPORT. The direct host commands case by case, and events at one of several ports (spec R7, R230 to R243, R300). -/

namespace Sys2Proof.Machine

/-- Settles O1: reset is a fixed state, whose memory holds no opcode. -/
theorem resetLeavesTheEmptyInstance : Obligations.ResetLeavesTheEmptyInstance :=
  ⟨fun _ => rfl, fun _ => rfl, fun _ ⟨_, hmem, _⟩ => List.not_mem_nil hmem, rfl, rfl, rfl, rfl, rfl,
    step_of_decodeWord_error (s := State.reset) (.inl rfl) rfl decodeWord_zero⟩

theorem hostOutput_of_empty {s : State} (h : s.outSlot = none) : hostOutput s = .answered (.error .noOutput) s :=
  hostOutput_answered_iff.2 (.inr ⟨h, rfl, rfl⟩)

theorem hostOutput_of_full {s : State} {v : Cell} (h : s.outSlot = some v) :
    hostOutput s = .answered (.ok v) (s.setOut none) :=
  hostOutput_answered_iff.2 (.inl ⟨v, h, rfl, rfl⟩)

theorem hostRead_of_nonneg {a : Cell} (h : 0 ≤ a.toInt) (s : State) :
    hostRead a s = .answered (.ok (mcRead (addrOfNat a.toNat) s)) s :=
  hostRead_answered_iff.2 ⟨.inr ⟨h.not_gt, rfl⟩, rfl⟩

theorem hostWrite_of_nonneg {a : Cell} (h : 0 ≤ a.toInt) (v : Cell) (s : State) :
    hostWrite a v s = .answered (.ok 0) (mcWrite (addrOfNat a.toNat) v s) :=
  hostWrite_answered_iff.2 (.inr ⟨h.not_gt, rfl, rfl⟩)

/-- The address that a host's cell names, if it is not negative, has the cell's number. -/
theorem addrOfNat_toNat_of_nonneg {a : Cell} (h : 0 ≤ a.toInt) : (addrOfNat a.toNat).toNat = a.toNat := by
  have hmax : a.toInt ≤ 9223372036854775807 := (toInt_bounds a).2
  rw [toInt_of_nonneg h] at hmax
  exact addrOfNat_toNat (by rw [addrMax_eq]; omega)

/-- The address `d` is the one that a cell of its number names. -/
theorem addrOfNat_eq_of_toInt {a : Cell} {d : Addr} (h : (d.toNat : Int) = a.toInt) : addrOfNat a.toNat = d := by
  have hpos : 0 ≤ a.toInt := by omega
  refine BitVec.eq_of_toNat_eq ((addrOfNat_toNat_of_nonneg hpos).trans ?_)
  rw [toInt_of_nonneg hpos] at h
  exact_mod_cast h.symm

theorem step_of_halted {s : State} (h : s.state = .halted) : step s = .fault .machineHalted :=
  step_of_checkRunnable_error (by rw [checkRunnable, h])

theorem step_of_blocked {s : State} (h : s.state = .blocked) : step s = .fault .machineBlocked :=
  step_of_checkRunnable_error (by rw [checkRunnable, h])

/-- STEP answers its step's error, and changes nothing (spec R234). -/
theorem hostStep_of_fault {s : State} {f : Fault} (h : step s = .fault f) : hostStep s = .answered (.error f) s :=
  hostStep_answered_iff.2 (.inr ⟨f, h, rfl, rfl⟩)

/-- STEP answers OK with its step's next state (spec R234). -/
theorem hostStep_of_next {s t : State} (h : step s = .next t) : hostStep s = .answered (.ok 0) t :=
  hostStep_answered_iff.2 (.inl ⟨h, rfl⟩)

/-- In Halted, every command that is answered but NEW leaves Halted, pc and the relative base (spec R216). -/
theorem hostCommand_of_halted {fuel : Nat} {c : Command} {r : Response} {s t : State} (hs : s.state = .halted)
    (hnew : ∀ image, c ≠ .new image) (h : hostCommand fuel c s = .answered r t) :
    t.state = .halted ∧ t.pc = s.pc ∧ t.rb = s.rb := by
  by_cases hrun : c = .run
  · obtain ⟨-, rfl⟩ := PortOutcome.answered.inj ((hostRun_of_halted hs fuel).symm.trans (hrun ▸ h))
    exact ⟨hs, rfl, rfl⟩
  by_cases hstep : c = .step
  · obtain ⟨-, rfl⟩ := PortOutcome.answered.inj ((hostStep_of_fault (step_of_halted hs)).symm.trans (hstep ▸ h))
    exact ⟨hs, rfl, rfl⟩
  obtain ⟨hpc, hrb, hstate, -⟩ := hostCommand_direct hnew hrun hstep h
  exact ⟨hstate.trans hs, hpc, hrb⟩

/-- In Blocked, every command that is answered but RUN and NEW leaves Blocked (spec R237). -/
theorem hostCommand_of_blocked {fuel : Nat} {c : Command} {r : Response} {s t : State} (hs : s.state = .blocked)
    (hrun : c ≠ .run) (hnew : ∀ image, c ≠ .new image) (h : hostCommand fuel c s = .answered r t) :
    t.state = .blocked := by
  by_cases hstep : c = .step
  · obtain ⟨-, rfl⟩ := PortOutcome.answered.inj ((hostStep_of_fault (step_of_blocked hs)).symm.trans (hstep ▸ h))
    exact hs
  obtain ⟨-, -, hstate, -⟩ := hostCommand_direct hnew hrun hstep h
  exact hstate.trans hs

/-- NEW of an image that fits leaves Paused (spec R231). -/
theorem hostNew_state {image : List Cell} {r : Response} {s t : State} (hlen : image.length ≤ Config.addrMax + 1)
    (h : hostNew image s = .answered r t) : t.state = .paused := by
  obtain ⟨-, rfl⟩ := PortOutcome.answered.inj ((hostNew_of_fits hlen s).symm.trans h)
  obtain ⟨-, -, hstate, -, -⟩ := mcWriteList_registers image 0 State.reset
  exact hstate

/-- Settles O47: STEP and RUN fail; the direct commands work as in any state, and only NEW and reset write the state. -/
theorem haltedIsTerminal : Obligations.HaltedIsTerminal := fun s fuel hs =>
  ⟨hostStep_of_fault (step_of_halted hs), hostRun_of_halted hs fuel,
    fun v hin => ⟨_, hostInput_of_empty hin v, rfl⟩, fun _ hout => ⟨_, hostOutput_of_full hout, rfl⟩,
    fun _ ha => ⟨_, addrOfNat_toNat_of_nonneg ha, hostRead_of_nonneg ha s⟩,
    fun _ v ha => ⟨_, _, addrOfNat_toNat_of_nonneg ha, hostWrite_of_nonneg ha v s, mcRead_mcWrite_same _ v s⟩,
    fun _ => ⟨_, rfl⟩, fun _ _ _ hnew => hostCommand_of_halted hs hnew, fun _ _ _ hlen => hostNew_state hlen, rfl⟩

/-- Settles O53: by cases on the command; each that answers an error answers it with the state as it was. -/
theorem errorsChangeNothing : Obligations.ErrorsChangeNothing := by
  refine ⟨fun s fuel t h => hostStep_of_next h, fun s fuel f h => hostStep_of_fault h,
    fun s fuel c f t hrun h => ?error⟩
  case error =>
    cases c with
    | run => exact absurd rfl hrun
    | new image =>
      change hostNew image s = _ at h
      by_cases hlen : image.length ≤ Config.addrMax + 1
      · cases (hostNew_of_fits hlen s).symm.trans h
      · rw [hostNew, if_pos (Nat.lt_of_not_le hlen)] at h
        cases h
    | step =>
      obtain ⟨-, hr⟩ | ⟨_, -, -, ht⟩ := hostStep_answered_iff.1 h
      · cases hr
      · exact ht
    | input v =>
      obtain ⟨-, hr, -⟩ | ⟨-, -, ht⟩ := hostInput_answered_iff.1 h
      · cases hr
      · exact ht
    | output =>
      obtain ⟨_, -, hr, -⟩ | ⟨-, -, ht⟩ := hostOutput_answered_iff.1 h
      · cases hr
      · exact ht
    | read a => exact (hostRead_answered_iff.1 h).2
    | write a v =>
      obtain ⟨-, -, ht⟩ | ⟨-, hr, -⟩ := hostWrite_answered_iff.1 h
      · exact ht
      · cases hr
    | status sel => exact (hostStatus_answered_iff.1 h).2

/-- Settles O56: by the slot, and in Blocked by what each command can do. -/
theorem outputCommandTakesTheValue : Obligations.OutputCommandTakesTheValue := fun _ _ =>
  ⟨hostOutput_of_empty, fun _ hout =>
    ⟨_, hostOutput_of_full hout, rfl, rfl, fun _ => rfl, fun _ => Iff.rfl, rfl, rfl, rfl⟩,
    fun hs _ _ _ hrun hnew => hostCommand_of_blocked hs hrun hnew⟩

/-- Settles O57: a cell that is not negative names one address, which READ reads and WRITE writes. -/
theorem readAndWritePassThrough : Obligations.ReadAndWritePassThrough := by
  refine fun s fuel a v => ⟨fun hneg => ?negative, fun d hd => ?address⟩
  case negative =>
    exact ⟨hostRead_answered_iff.2 ⟨.inl ⟨hneg, rfl⟩, rfl⟩, hostWrite_answered_iff.2 (.inl ⟨hneg, rfl, rfl⟩)⟩
  case address =>
    have hpos : 0 ≤ a.toInt := by omega
    obtain rfl := addrOfNat_eq_of_toInt hd
    exact ⟨hostRead_of_nonneg hpos s, _, hostWrite_of_nonneg hpos v s, mcRead_mcWrite_same _ v s,
      memorySameBut_mcWrite _ v s, pagesWith_mcWrite _ v s, rfl, rfl, rfl, rfl, rfl⟩

/-- The fields of STATUS(0) do not overlap, and nothing is above them (spec R241). -/
theorem statusWord_fields (s : State) : (statusWord s).toNat % 4 = s.state.code ∧
    (statusWord s).toNat / 4 % 2 = (if s.inSlot = none then 0 else 1) ∧
    (statusWord s).toNat / 8 = (if s.outSlot = none then 0 else 1) := by
  have hcode : s.state.code ≤ 3 := by cases s.state <;> decide
  unfold statusWord
  rw [BitVec.toNat_ofNat]
  cases s.inSlot <;> cases s.outSlot <;> simp <;> omega

/-- Settles O58: STATUS answers the data of its selector. -/
theorem statusReadsTheControlState : Obligations.StatusReadsTheControlState := by
  intro s fuel sel
  refine ⟨statusData sel s, rfl, ?packed, ?pc, ?rb, fun h0 h1 h2 => ?other⟩
  case packed =>
    rintro rfl
    obtain ⟨hstate, hin, hout⟩ := statusWord_fields s
    exact ⟨hstate.trans (by cases s.state <;> rfl), hin, hout⟩
  case pc =>
    rintro rfl
    exact cellOfAddr_toNat s.pc
  case rb =>
    rintro rfl
    exact cellOfAddr_toNat s.rb
  case other => rw [statusData, if_neg h0, if_neg h1, if_neg h2]

/-- Settles O59: the tables are fixed. -/
theorem codesOfErrorsAndRequests : Obligations.CodesOfErrorsAndRequests :=
  ⟨by decide, fun _ => rfl, fun _ => rfl, fun _ _ => ⟨rfl, rfl, rfl, rfl, rfl, rfl, rfl, rfl⟩⟩

/-- An event at a port `j` of several is that port's own, and sets that port. -/
theorem instancesEvent_of_getElem {j : Nat} {ps : List PortState} {p : PortState} (h : ps[j]? = some p) (e : PortEvent) :
    instancesEvent j e ps = some ((portEvent e p).1, ps.set j (portEvent e p).2) := by
  unfold instancesEvent
  rw [h]

/-- Settles O60: the event sets the port at `j` in the list and no other. -/
theorem instancesAreIndependent : Obligations.InstancesAreIndependent := by
  refine fun j e ps => ⟨fun p hp => ?present, fun s c fuel r t hp he h => ?ready, fun hnone => ?absent⟩
  case present =>
    obtain ⟨hj, -⟩ := List.getElem?_eq_some_iff.1 hp
    exact ⟨_, instancesEvent_of_getElem hp e, List.getElem?_set_self hj, List.length_set,
      fun k hk => List.getElem?_set_ne hk.symm⟩
  case ready =>
    have hevent : portEvent e (.ready s) = (.response r, .ready t) := by
      rw [he]
      exact congrArg (PortState.settle (.ready s)) h
    obtain ⟨hj, -⟩ := List.getElem?_eq_some_iff.1 hp
    rw [instancesEvent_of_getElem hp, hevent]
    exact ⟨_, rfl, List.getElem?_set_self hj⟩
  case absent =>
    unfold instancesEvent
    rw [hnone]

end Sys2Proof.Machine
end
